-- ==== Sys2Proof/Word.lean ====
section
/-!
DEFINITION. The bit-vector types of CORE (00_scope.md R7, R9): a slot and the flags container are 64-bit
words, and the narrower width classes carry 32, 16 and 8 bits. Every value is unsigned.
-/

namespace Sys2Proof

/-- The contents of a slot or of the flags container: 64 bits (R7, `XLEN` and `FLAGSLEN`). -/
abbrev Word := BitVec 64

/-- The value of the 32-bit width class. -/
abbrev Word32 := BitVec 32

/-- The value of the 16-bit width class. -/
abbrev Half := BitVec 16

/-- The value of either 8-bit width class, and one byte of the instruction stream. -/
abbrev Byte := BitVec 8

end Sys2Proof
end

