-- ==== Sys2Proof/Config.lean ====
section
/-!
DEFINITION. The implementation parameters of CORE (00_scope.md R7, R8). Those of R7 are fixed and stand in the
types (16 slots of 64 bits, five width classes, four extension bits); the two below are used by name.
CORE has no undefined result, so there is no free value here.
-/

namespace Sys2Proof.Config

/-- `IDX_W`, the width of the index field of the packed command: a parameter of the hardware build, at least 4,
with default 8 (R8, R42). DESIGN CHOICE, log 4: the default. Only the packed word depends on it: the meanings
take an index of any size. -/
abbrev idxW : Nat := 8

/-- The high nibble of every register-extension byte, `0b0100` (R47). PRESUMED, log 8: decision D7 of the
spec, from general knowledge. -/
def extensionTag : BitVec 4 := 0b0100#4

end Sys2Proof.Config
end

