-- ==== Sys2Proof/Syntax.lean ====
section
/-!
DEFINITION. The operations of CORE as syntax, and what can stand on its input ports in one step.
One constructor of `Instr` per row of spec/opcode_table.json (00_scope.md R14).
-/

namespace Sys2Proof

/-- One operation: one call of one accessor, of the decode function or of the scan function (R13, R14).
An index is an unsigned number of any size (R8, R18); a value has its width class's width (R43). -/
inductive Instr where
  /-- `get64 i` (R53). -/
  | get64 (i : Nat)
  /-- `set64 i, v` (R54). -/
  | set64 (i : Nat) (v : Word)
  /-- `get32 i` (R55). -/
  | get32 (i : Nat)
  /-- `set32 i, v` (R56). -/
  | set32 (i : Nat) (v : Word32)
  /-- `get16 i` (R57). -/
  | get16 (i : Nat)
  /-- `set16 i, v` (R58). -/
  | set16 (i : Nat) (v : Half)
  /-- `get8l i` (R59). -/
  | get8l (i : Nat)
  /-- `set8l i, v` (R60). -/
  | set8l (i : Nat) (v : Byte)
  /-- `get8h i` (R61). -/
  | get8h (i : Nat)
  /-- `set8h i, v` (R62). -/
  | set8h (i : Nat) (v : Byte)
  /-- `getf` (R63). -/
  | getf
  /-- `setf v` (R64). -/
  | setf (v : Word)
  /-- `decode b` (R65). -/
  | decodeExt (b : Byte)
  /-- `scan [b0, b1, ...]` (R66), the slice possibly empty (R29). -/
  | scan (bytes : List Byte)
  deriving DecidableEq, Repr

/-- What the external decoder asks of CORE in one step, as it stands on the ports (R38, R39, R40). -/
inductive Request where
  /-- `rf_valid = 1` with `rf_op`, `rf_idx` (unsigned, of any width, R8) and `rf_wdata` (R39). -/
  | rf (op : BitVec 4) (idx : Nat) (wdata : Word)
  /-- A byte on `dx_byte` (R40). -/
  | dx (b : Byte)
  /-- A byte slice at the decode cursor for PR: `pr_nonempty` and `pr_b0` are its emptiness and its first byte
  (R29, R40). -/
  | pr (bytes : List Byte)
  deriving DecidableEq, Repr

/-- The input ports during one step: `rst` (R39, R81) and the request, `none` being a step in which nothing is
asked (`rf_valid = 0`). -/
structure Input where
  /-- The synchronous reset input. -/
  rst : Bool
  /-- The one operation of the step, if any (R76). -/
  request : Option Request
  deriving DecidableEq, Repr

/-- The input ports when nothing is presented: no reset, `rf_valid = 0`. -/
def Input.quiet : Input := ⟨false, none⟩

/-- The input ports when one request is presented outside reset. -/
def Input.present (r : Request) : Input := ⟨false, some r⟩

end Sys2Proof
end

