-- ==== Sys2Proof/WellFormed.lean ====
section
/-!
DEFINITION. Which operations have a spelling as a packed command. CORE itself refuses no index (10_state.md R18);
the one bound is that of the `idx` field of 30_encoding.md R42, `IDX_W` bits wide.
-/

namespace Sys2Proof

/-- The index an operation carries, where it carries one. -/
def Instr.index? : Instr → Option Nat
  | .get64 i => some i
  | .set64 i _ => some i
  | .get32 i => some i
  | .set32 i _ => some i
  | .get16 i => some i
  | .set16 i _ => some i
  | .get8l i => some i
  | .set8l i _ => some i
  | .get8h i => some i
  | .set8h i _ => some i
  | .getf => none
  | .setf _ => none
  | .decodeExt _ => none
  | .scan _ => none

/-- The index fits an `idx` field of `idxW` bits (R42). Operations without an index always fit. -/
def Instr.fits (idxW : Nat) (i : Instr) : Bool :=
  match i.index? with
  | some n => decide (n < 2 ^ idxW)
  | none => true

/-- Well-formed: spellable at the index width of this build (R8, R42). -/
def Instr.wellFormed (i : Instr) : Bool := i.fits Config.idxW

end Sys2Proof
end

