-- ==== Sys2Proof/Decode.lean ====
section
/-!
DEFINITION. Decoding what stands on the input ports, and the encoder.
The register-file command (30_encoding.md R41 to R45), the prefix byte (R47) and the byte slice (20_memory.md R29)
reach CORE on ports of their own, so a request says which of the three encodings its bits are in.
-/

namespace Sys2Proof

/-- Why a request spells no operation. -/
inductive DecodeError where
  /-- `rf_op` is one of the reserved codes `0xC` to `0xF` (R45). -/
  | reservedOperation (code : BitVec 4)
  deriving DecidableEq, Repr

/-! ## Decoding -/

/-- The value operand of a set of width `n`: `rf_wdata[n-1:0]`, the bits above being ignored (R43). -/
def operandValue (n : Nat) (wdata : Word) : BitVec n := wdata.extractLsb' 0 n

/-- The operation codes of R41. -/
def decodeCommand (op : BitVec 4) (idx : Nat) (wdata : Word) : Except DecodeError Instr :=
  match op.toNat with
  | 0x0 => .ok (.get64 idx)
  | 0x1 => .ok (.set64 idx (operandValue 64 wdata))
  | 0x2 => .ok (.get32 idx)
  | 0x3 => .ok (.set32 idx (operandValue 32 wdata))
  | 0x4 => .ok (.get16 idx)
  | 0x5 => .ok (.set16 idx (operandValue 16 wdata))
  | 0x6 => .ok (.get8l idx)
  | 0x7 => .ok (.set8l idx (operandValue 8 wdata))
  | 0x8 => .ok (.get8h idx)
  | 0x9 => .ok (.set8h idx (operandValue 8 wdata))
  | 0xA => .ok .getf
  | 0xB => .ok (.setf (operandValue 64 wdata))
  | _ => .error (.reservedOperation op)

/-- The operation a request asks for. Every byte and every slice is accepted on its own port (R48, R73). -/
def decode : Request → Except DecodeError Instr
  | .rf op idx wdata => decodeCommand op idx wdata
  | .dx b => .ok (.decodeExt b)
  | .pr bytes => .ok (.scan bytes)

/-- The ports a packed command `op[75:72] idx[71:64] data[63:0]` stands for, with an `idx` field of any width
(R42); the index is zero-extended (R43). -/
def unpackCommand (idxW : Nat) (cmd : BitVec (4 + idxW + 64)) : Request :=
  .rf (cmd.extractLsb' (64 + idxW) 4) (cmd.extractLsb' 64 idxW).toNat (cmd.extractLsb' 0 64)

/-- The operation a packed command spells. -/
def decodePacked (idxW : Nat) (cmd : BitVec (4 + idxW + 64)) : Except DecodeError Instr :=
  decode (unpackCommand idxW cmd)

/-! ## Encoding -/

/-- The ports that ask for an operation, from the same table R41. Bits the operation ignores are written as
zero (R42 for a get's data; log 19 for the data bits a set ignores and the index of GETF and SETF). -/
def encode : Instr → Request
  | .get64 i => .rf 0x0#4 i 0#64
  | .set64 i v => .rf 0x1#4 i v
  | .get32 i => .rf 0x2#4 i 0#64
  | .set32 i v => .rf 0x3#4 i (v.setWidth 64)
  | .get16 i => .rf 0x4#4 i 0#64
  | .set16 i v => .rf 0x5#4 i (v.setWidth 64)
  | .get8l i => .rf 0x6#4 i 0#64
  | .set8l i v => .rf 0x7#4 i (v.setWidth 64)
  | .get8h i => .rf 0x8#4 i 0#64
  | .set8h i v => .rf 0x9#4 i (v.setWidth 64)
  | .getf => .rf 0xA#4 0 0#64
  | .setf v => .rf 0xB#4 0 v
  | .decodeExt b => .dx b
  | .scan bytes => .pr bytes

/-- The packed command word of R42, with an `idx` field of any width. -/
def packCommand (idxW : Nat) (op : BitVec 4) (idx : Nat) (wdata : Word) : BitVec (4 + idxW + 64) :=
  op ++ BitVec.ofNat idxW idx ++ wdata

/-- The packed command of a register-file operation; DECODE_EXT and SCAN have none, their encoding being the
bytes themselves (R47, R29). -/
def encodePacked (idxW : Nat) (i : Instr) : Option (BitVec (4 + idxW + 64)) :=
  match encode i with
  | .rf op idx wdata => some (packCommand idxW op idx wdata)
  | .dx _ => none
  | .pr _ => none

/-! ## The opcode table's words -/

/-- The byte slice whose bytes are those of `w`, least significant first. -/
def sliceOf : Nat → Nat → List Byte
  | 0, _ => []
  | n + 1, w => BitVec.ofNat 8 w :: sliceOf n (w / 256)

/-- The request a word of spec/opcode_table.json is presented as. The table numbers one whole command (76 bits, given as
80), one prefix byte (8 bits), or the bytes of a slice. DECODE_EXT and SCAN have the same byte in the table and differ by their port only:
DESIGN CHOICE, log 14, one byte is presented on `dx_byte`, any other number of bytes as a slice. Bits above the 76
of a command are no bits of it (log 15). -/
def tableRequest (nbits w : Nat) : Request :=
  if 76 ≤ nbits then unpackCommand 8 (BitVec.ofNat 76 w)
  else if nbits = 8 then .dx (BitVec.ofNat 8 w)
  else .pr (sliceOf ((nbits + 7) / 8) w)

/-- The instruction the decoder reads from a word of the opcode table. -/
def decodeTableWord (nbits w : Nat) : Option Instr :=
  match decode (tableRequest nbits w) with
  | .ok i => some i
  | .error _ => none

end Sys2Proof
end

