-- ==== Sys2Proof/Machine/State.lean ====
section
/-!
DEFINITION. The state of CORE, as plain data, and its reset value.
CORE's architectural state is exactly the slots and the flags container (10_state.md R15); the two other fields
are the model's own and hold what stands on CORE's ports.
-/

namespace Sys2Proof

/-- A decoded register extension: four booleans (30_encoding.md R47, 00_scope.md R12). -/
structure Ext where
  /-- Widens the operand width to 64 bits. -/
  W : Bool
  /-- Extends the destination-register field. -/
  R : Bool
  /-- Extends the index-register field. -/
  X : Bool
  /-- Extends the base/ModRM register field. -/
  B : Bool
  deriving DecidableEq, Repr

/-- PrefixScanResult: the optional extension and the count of bytes consumed (41_prefix_decode.md R67). -/
structure ScanResult where
  /-- `none` when no extension byte stands first. -/
  ext : Option Ext
  /-- How far the external decoder advances its cursor. -/
  consumed : Nat
  deriving DecidableEq, Repr

/-- What an operation returns, typed at its width (30_encoding.md R44). -/
inductive Answer where
  /-- Nothing: after a set, a step without an operation, or a reset step. -/
  | nothing
  /-- The result of GET64 or GETF. -/
  | word (r : Word)
  /-- The result of GET32. -/
  | word32 (r : Word32)
  /-- The result of GET16. -/
  | half (r : Half)
  /-- The result of GET8L or GET8H. -/
  | byte (r : Byte)
  /-- The result of DECODE_EXT. -/
  | ext (e : Option Ext)
  /-- The result of SCAN. -/
  | scan (r : ScanResult)
  deriving DecidableEq, Repr

namespace Machine

/-- The reasons CORE stops with a fault: none. No operation is fallible and none raises an exception
(60_exceptions.md R71). -/
inductive Fault where
  deriving DecidableEq, Repr

/-- The reasons a step has no meaning. -/
inductive Refusal where
  /-- Raised by an arm of `exec` whose instruction has no meaning yet; no arm is left so. Safe. -/
  | notModelled (mnemonic : String)
  /-- Raised by `step` on a command whose `rf_op` is one of the reserved codes `0xC` to `0xF`, which the
  spec says the model refuses (30_encoding.md R45, log 6). Safe: every claim about it is unprovable. -/
  | reservedOperation (code : BitVec 4)
  deriving DecidableEq, Repr

/-- The state. `slots` and `flags` are CORE's own (R15; a vector in place of the spec's function, log 18);
`answer` and `inputs` are the model's (logs 1 and 2). -/
structure State where
  /-- The 16 general-purpose slots `x[0..15]` (R16). -/
  slots : Vector Word 16
  /-- The opaque flags container (R20). -/
  flags : Word
  /-- What the last step returned. -/
  answer : Answer
  /-- What the external decoder presents, the next step's first. -/
  inputs : List Input
  deriving DecidableEq, Repr

/-- Right after reset every slot and the flags container are zero (10_state.md R26, 70_reset_and_hazards.md R81).
DESIGN CHOICE, logs 1 and 2: nothing has been answered and nothing is presented yet. -/
def State.reset : State where
  slots := Vector.replicate 16 0#64
  flags := 0#64
  answer := .nothing
  inputs := []

end Machine

end Sys2Proof
end

