-- ==== Sys2Proof/Machine/Operands.lean ====
section
/-!
DEFINITION. The operand forms of CORE: the wrapped index (10_state.md R18), the five lanes of a slot
(20_memory.md R30), and the register-extension byte (30_encoding.md R47).
-/

namespace Sys2Proof.Machine

/-- The wrapped index `i mod 16` of every sized accessor (R18). -/
def widx (i : Nat) : Fin 16 := ⟨i % 16, Nat.mod_lt i (by decide)⟩

/-! ## What a get reads of a slot (R30) -/

/-- Bits 63:0 (R53). -/
def lane64 (x : Word) : Word := x
/-- Bits 31:0 (R55). -/
def lane32 (x : Word) : Word32 := x.extractLsb' 0 32
/-- Bits 15:0 (R57). -/
def lane16 (x : Word) : Half := x.extractLsb' 0 16
/-- Bits 7:0 (R59). -/
def laneLow8 (x : Word) : Byte := x.extractLsb' 0 8
/-- Bits 15:8, as a byte value that is not shifted back (R61, R44). -/
def laneHigh8 (x : Word) : Byte := x.extractLsb' 8 8

/-! ## What a set leaves in a slot that held `x` (R30) -/

/-- `x[j] <- v` (R54). -/
def put64 (_x : Word) (v : Word) : Word := v
/-- `x[j] <- zext_64(v)`: the upper half is cleared whatever it held (R56). -/
def put32 (_x : Word) (v : Word32) : Word := 0#32 ++ v
/-- `x[j] <- x[j][63:16] ++ v` (R58). -/
def put16 (x : Word) (v : Half) : Word := x.extractLsb' 16 48 ++ v
/-- `x[j] <- x[j][63:8] ++ v` (R60). -/
def putLow8 (x : Word) (v : Byte) : Word := x.extractLsb' 8 56 ++ v
/-- `x[j] <- x[j][63:16] ++ v ++ x[j][7:0]` (R62). -/
def putHigh8 (x : Word) (v : Byte) : Word := x.extractLsb' 16 48 ++ v ++ x.extractLsb' 0 8

/-! ## The register extension -/

/-- The extension of a byte, `0100WRXB`, or `none` for any other byte (R65; the layout is decision D7, log 8). -/
def extensionOf (b : Byte) : Option Ext :=
  if b.extractLsb' 4 4 = Config.extensionTag then
    some { W := b.getLsbD 3, R := b.getLsbD 2, X := b.getLsbD 1, B := b.getLsbD 0 }
  else none

/-- The scan of a slice: its first byte decides, and nothing beyond it is inspected (R66; the empty slice is
decision D9, log 10). -/
def scanOf : List Byte → ScanResult
  | [] => { ext := none, consumed := 0 }
  | b :: _ =>
    match extensionOf b with
    | some e => { ext := some e, consumed := 1 }
    | none => { ext := none, consumed := 0 }

end Sys2Proof.Machine
end

