-- ==== Sys2Proof/Machine/Ops.lean ====
section
/-!
DEFINITION. The named operations over the state that the meanings are written in: reading and writing a slot,
answering, taking the next input, and the reset and idle steps. CORE has no memory (20_memory.md R28) and takes no
exceptions (60_exceptions.md R71, R77), so there is no memory operation and no exception entry.
-/

namespace Sys2Proof.Machine

/-- The contents of slot `j`. -/
def State.slot (s : State) (j : Fin 16) : Word := s.slots[j]

/-- Replace the contents of slot `j`, and of no other (10_state.md R16). -/
def State.setSlot (s : State) (j : Fin 16) (v : Word) : State := { s with slots := s.slots.set j v }

/-- Record what the operation returns (00_scope.md R12). -/
def State.answerWith (s : State) (a : Answer) : State := { s with answer := a }

/-- A get of slot `i mod 16` through the lane `read`, which changes neither a slot nor the flags
(20_memory.md R33). -/
def State.get (s : State) (i : Nat) (read : Word → Answer) : State :=
  s.answerWith (read (s.slot (widx i)))

/-- A set of slot `i mod 16`: `write` gives the new contents from the old ones, in one atomic step, and nothing
is returned (20_memory.md R33, 30_encoding.md R44). -/
def State.put (s : State) (i : Nat) (write : Word → Word) : State :=
  (s.setSlot (widx i) (write (s.slot (widx i)))).answerWith .nothing

/-- A step in which no operation is presented: CORE's state is unchanged and nothing is returned
(30_encoding.md R39, log 13). -/
def State.idle (s : State) : State := s.answerWith .nothing

/-- A step with `rst = 1`: every slot and the flags container are cleared, and no operation takes effect
(70_reset_and_hazards.md R81, log 12). -/
def State.clear (s : State) : State :=
  { s with slots := State.reset.slots, flags := State.reset.flags, answer := .nothing }

/-- Take what the external decoder presents in this step; once it presents nothing more, the ports are quiet
(log 13). -/
def State.takeInput (s : State) : Input × State :=
  match s.inputs with
  | [] => (Input.quiet, s)
  | inp :: rest => (inp, { s with inputs := rest })

/-- `rf_rdata` for what a step returned: a get's result zero-extended to 64 bits, and 0 for a set, for a step
without an operation and for an operation of the other ports (30_encoding.md R39, R44). -/
def Answer.rfRdata : Answer → Word
  | .nothing => 0#64
  | .word r => r
  | .word32 r => r.setWidth 64
  | .half r => r.setWidth 64
  | .byte r => r.setWidth 64
  | .ext _ => 0#64
  | .scan _ => 0#64

/-- The `rf_rdata` port of the step just taken. -/
def State.rfRdata (s : State) : Word := Answer.rfRdata s.answer

/-- The refusal that answers a request which spells no operation (30_encoding.md R45). -/
def refusalOf : DecodeError → Refusal
  | .reservedOperation code => .reservedOperation code

end Sys2Proof.Machine
end

