-- ==== Sys2Proof/Machine/Flags.lean ====
section
/-!
DEFINITION. The flags container: one opaque 64-bit value with direct, unstructured get and set (10_state.md R20).
CORE computes no flag and gives no bit of the container a meaning.
-/

namespace Sys2Proof.Machine

/-- Read all 64 bits (R63). -/
def State.getFlags (s : State) : State := s.answerWith (.word s.flags)

/-- Replace all 64 bits; no bit is masked or forced (R64). -/
def State.putFlags (s : State) (v : Word) : State := { s with flags := v, answer := .nothing }

end Sys2Proof.Machine
end

