-- ==== Sys2Proof/Machine/FlagsContainer.lean ====
section
/-!
DEFINITION. The meanings of the two operations on the flags container (40_register_file.md R63, R64).
-/

namespace Sys2Proof.Machine

/-- GETF (R63). -/
def execGetf (s : State) : Host.Outcome State Fault Refusal := .next s.getFlags

/-- SETF (R64). -/
def execSetf (v : Word) (s : State) : Host.Outcome State Fault Refusal := .next (s.putFlags v)

end Sys2Proof.Machine
end

