-- ==== Sys2Proof/Machine/Recognizer.lean ====
section
/-!
DEFINITION. The meanings of the extension decode and of the scan of PrefixRecognizer (41_prefix_decode.md R65, R66).
Neither reads or writes a slot or the flags container (10_state.md R24).
-/

namespace Sys2Proof.Machine

/-- DECODE_EXT (R65). -/
def execDecodeExt (b : Byte) (s : State) : Host.Outcome State Fault Refusal :=
  .next (s.answerWith (.ext (extensionOf b)))

/-- SCAN (R66). -/
def execScan (bytes : List Byte) (s : State) : Host.Outcome State Fault Refusal :=
  .next (s.answerWith (.scan (scanOf bytes)))

end Sys2Proof.Machine
end

