-- ==== Sys2Proof/Machine/RegisterFile.lean ====
section
/-!
DEFINITION. The meanings of the ten sized accessors (40_register_file.md R53 to R62). Each is one call of the
shared get or set over its width class's lane; every one accepts any index and completes.
-/

namespace Sys2Proof.Machine

/-- GET64 (R53). -/
def execGet64 (i : Nat) (s : State) : Host.Outcome State Fault Refusal :=
  .next (s.get i fun x => .word (lane64 x))

/-- SET64 (R54). -/
def execSet64 (i : Nat) (v : Word) (s : State) : Host.Outcome State Fault Refusal :=
  .next (s.put i fun x => put64 x v)

/-- GET32 (R55). -/
def execGet32 (i : Nat) (s : State) : Host.Outcome State Fault Refusal :=
  .next (s.get i fun x => .word32 (lane32 x))

/-- SET32: not a read-modify-write, the whole slot is replaced (R56). -/
def execSet32 (i : Nat) (v : Word32) (s : State) : Host.Outcome State Fault Refusal :=
  .next (s.put i fun x => put32 x v)

/-- GET16 (R57). -/
def execGet16 (i : Nat) (s : State) : Host.Outcome State Fault Refusal :=
  .next (s.get i fun x => .half (lane16 x))

/-- SET16 (R58). -/
def execSet16 (i : Nat) (v : Half) (s : State) : Host.Outcome State Fault Refusal :=
  .next (s.put i fun x => put16 x v)

/-- GET8L (R59). -/
def execGet8l (i : Nat) (s : State) : Host.Outcome State Fault Refusal :=
  .next (s.get i fun x => .byte (laneLow8 x))

/-- SET8L (R60). -/
def execSet8l (i : Nat) (v : Byte) (s : State) : Host.Outcome State Fault Refusal :=
  .next (s.put i fun x => putLow8 x v)

/-- GET8H: raw, for every slot and whatever extension was recognized (R61, R19). -/
def execGet8h (i : Nat) (s : State) : Host.Outcome State Fault Refusal :=
  .next (s.get i fun x => .byte (laneHigh8 x))

/-- SET8H: raw, for every slot and whatever extension was recognized (R62, R19). -/
def execSet8h (i : Nat) (v : Byte) (s : State) : Host.Outcome State Fault Refusal :=
  .next (s.put i fun x => putHigh8 x v)

end Sys2Proof.Machine
end

