-- ==== Sys2Proof/Machine/Dispatch.lean ====
section
/-!
DEFINITION. One arm per operation, each one call of its meaning.
-/

namespace Sys2Proof.Machine

/-- The meaning of one operation. -/
def exec (i : Instr) (s : State) : Host.Outcome State Fault Refusal :=
  match i with
  | .get64 k => Sys2Proof.Machine.execGet64 k s
  | .set64 k v => Sys2Proof.Machine.execSet64 k v s
  | .get32 k => Sys2Proof.Machine.execGet32 k s
  | .set32 k v => Sys2Proof.Machine.execSet32 k v s
  | .get16 k => Sys2Proof.Machine.execGet16 k s
  | .set16 k v => Sys2Proof.Machine.execSet16 k v s
  | .get8l k => Sys2Proof.Machine.execGet8l k s
  | .set8l k v => Sys2Proof.Machine.execSet8l k v s
  | .get8h k => Sys2Proof.Machine.execGet8h k s
  | .set8h k v => Sys2Proof.Machine.execSet8h k v s
  | .getf => Sys2Proof.Machine.execGetf s
  | .setf v => Sys2Proof.Machine.execSetf v s
  | .decodeExt b => Sys2Proof.Machine.execDecodeExt b s
  | .scan bytes => Sys2Proof.Machine.execScan bytes s

end Sys2Proof.Machine
end

