-- ==== Sys2Proof/Machine/Step.lean ====
section
/-!
DEFINITION. One step of CORE: one operation (00_scope.md R13), taken from what the external decoder presents.
There is no program counter and no fetch (10_state.md R23).
-/

namespace Sys2Proof.Machine

/-- One step. With `rst = 1` CORE is reset and the request has no effect (70_reset_and_hazards.md R81); without a
request its state is unchanged (30_encoding.md R39); a request that spells no operation is refused (R45); any other
request runs as its operation. -/
def step (s : State) : Host.Outcome State Fault Refusal :=
  match s.takeInput with
  | (inp, s') =>
    if inp.rst then .next s'.clear
    else
      match inp.request with
      | none => .next s'.idle
      | some r =>
        match decode r with
        | .ok i => exec i s'
        | .error e => .refused (refusalOf e)

/-- The state with a word of spec/opcode_table.json presented for the very next step, ahead of whatever is
presented after it. This stands for the external decoder asking for the operation (log 1). -/
def State.withFetchWord (s : State) (nbits w : Nat) : State :=
  { s with inputs := Input.present (tableRequest nbits w) :: s.inputs }

end Sys2Proof.Machine
end

