-- ==== Sys2Proof/Machine/Ports.lean ====
section
/-!
DEFINITION. The output ports and the clocked register file as hardware computes them (30_encoding.md R39, R40, R41):
functions of the input ports and of the slots and flags, written as a write-mask datapath and a parallel byte match.
`step` does not use them. They are the spec's second description of the same operations, and statements relate
the two.
-/

namespace Sys2Proof.Machine

/-- The input ports of the register file during one clock step (R39). `idx` is the unsigned value on `rf_idx`. -/
structure RfPorts where
  /-- `rst`. -/
  rst : Bool
  /-- `rf_valid`. -/
  valid : Bool
  /-- `rf_op`. -/
  op : BitVec 4
  /-- `rf_idx`. -/
  idx : Nat
  /-- `rf_wdata`. -/
  wdata : Word
  deriving DecidableEq, Repr

/-- `rf_op[0]`: 1 for a set, 0 for a get (R41). -/
def RfPorts.isSet (p : RfPorts) : Bool := p.op.getLsbD 0

/-- `rf_op[3:1]`: the width class, in the order of the source's table and then flags (R41). -/
def RfPorts.sel (p : RfPorts) : Nat := (p.op.extractLsb' 1 3).toNat

/-- The value a get of width class `sel` drives, zero-extended, from the addressed slot and the flags (R30, R44). -/
def readMux (sel : Nat) (x flags : Word) : Word :=
  match sel with
  | 0 => x
  | 1 => x &&& 0x00000000FFFFFFFF#64
  | 2 => x &&& 0x000000000000FFFF#64
  | 3 => x &&& 0x00000000000000FF#64
  | 4 => (x >>> 8) &&& 0x00000000000000FF#64
  | 5 => flags
  | _ => 0#64

/-- The bits of the addressed slot that a set of width class `sel` writes (R30). -/
def writeMask (sel : Nat) : Word :=
  match sel with
  | 0 => 0xFFFFFFFFFFFFFFFF#64
  | 1 => 0xFFFFFFFFFFFFFFFF#64
  | 2 => 0x000000000000FFFF#64
  | 3 => 0x00000000000000FF#64
  | 4 => 0x000000000000FF00#64
  | _ => 0#64

/-- The value operand moved to its lane (R43): the 32-bit class clears the upper half, and the high byte is taken
from `rf_wdata[7:0]`. -/
def writeData (sel : Nat) (wdata : Word) : Word :=
  match sel with
  | 1 => wdata &&& 0x00000000FFFFFFFF#64
  | 4 => wdata <<< 8
  | _ => wdata

/-- `rf_rdata`, combinational (R39, R44): the lane of the present state for a get, and 0 for a set, when `rf_valid = 0`,
for a reserved code (R45) and during reset (R81). No statement reads it for a reserved code (log 6) or in a reset
step (log 12). -/
def rfRdata (p : RfPorts) (s : State) : Word :=
  if p.rst || !p.valid || p.isSet then 0#64 else readMux p.sel (s.slot (widx p.idx)) s.flags

/-- The slots after the rising edge (R39, R81). A width class that is no slot's has an empty write mask. -/
def rfNextSlots (p : RfPorts) (s : State) : Vector Word 16 :=
  if p.rst then Vector.replicate 16 0#64
  else if p.valid && p.isSet then
    s.slots.set (widx p.idx)
      ((s.slot (widx p.idx) &&& ~~~ writeMask p.sel) ||| (writeData p.sel p.wdata &&& writeMask p.sel))
  else s.slots

/-- The flags container after the rising edge (R39, R81). -/
def rfNextFlags (p : RfPorts) (s : State) : Word :=
  if p.rst then 0#64
  else if p.valid && p.isSet && p.sel == 5 then p.wdata
  else s.flags

/-- `dx_present`: one 4-bit equality comparator (R40, R65). -/
def dxPresent (b : Byte) : Bool := b >>> 4 == 0x04#8

/-- `dx_ext`: the low nibble `{W, R, X, B}`, gated by `dx_present`. Its value when `dx_present = 0` is decision D8
(log 9), and no statement reads it. -/
def dxExt (b : Byte) : BitVec 4 := if dxPresent b then b.setWidth 4 else 0#4

/-- `pr_present`: `pr_b0` is ignored when `pr_nonempty = 0` (R40). -/
def prPresent (nonempty : Bool) (b0 : Byte) : Bool := nonempty && dxPresent b0

/-- `pr_ext` (R40), gated by `pr_present` (log 9). -/
def prExt (nonempty : Bool) (b0 : Byte) : BitVec 4 := if prPresent nonempty b0 then dxExt b0 else 0#4

/-- `pr_consumed`: equal to `pr_present` (R40). -/
def prConsumed (nonempty : Bool) (b0 : Byte) : Nat := (prPresent nonempty b0).toNat

/-- The four extension bits as one 4-bit port value, `W` at bit 3 and `B` at bit 0 (R40, R47). -/
def Ext.nibble (e : Ext) : BitVec 4 :=
  BitVec.ofBool e.W ++ BitVec.ofBool e.R ++ BitVec.ofBool e.X ++ BitVec.ofBool e.B

end Sys2Proof.Machine
end

