-- ==== Sys2Proof/Machine/Pseudo.lean ====
section
/-!
DEFINITION. The one pseudo-instruction, `mov64 d, s` (30_encoding.md R52).
-/

namespace Sys2Proof.Machine

/-- `mov64 d, s`: `get64 s -> t`, then `set64 d, t`, two operations. The client reads `t` from `rf_rdata` (log 21). -/
def mov64 (d src : Nat) (s : State) : Host.Outcome State Fault Refusal :=
  match exec (.get64 src) s with
  | .next s₁ => exec (.set64 d s₁.rfRdata) s₁
  | .fault r => .fault r
  | .refused r => .refused r

end Sys2Proof.Machine
end

