-- ==== Sys2Proof/Safety.lean ====
section
/-!
DEFINITION. The terms statements are written in: the part of the state the spec gives CORE, running a list of
operations, which bit of which slot an operation writes (the table 20_memory.md R30), runs that cannot stop, and
the invariant of the answer.
-/

namespace Sys2Proof.Machine

/-- Equal slots and equal flags: the same architectural state (10_state.md R15). -/
def SameCore (s t : State) : Prop := t.slots = s.slots ∧ t.flags = s.flags

/-- One operation after another, in issue order (20_memory.md R34). -/
def runOps : List Instr → State → Host.Outcome State Fault Refusal
  | [], s => .next s
  | i :: rest, s =>
    match exec i s with
    | .next s' => runOps rest s'
    | .fault r => .fault r
    | .refused r => .refused r

/-- The value an operation writes to bit `b` of slot `j`, and `none` where it does not write that bit: the columns
"set writes" and "bits the set preserves" of the lane table (20_memory.md R30). -/
def writtenBit (j : Fin 16) (b : Nat) : Instr → Option Bool
  | .set64 i v => if i % 16 = j.val then some (v.getLsbD b) else none
  | .set32 i v => if i % 16 = j.val then some (decide (b < 32) && v.getLsbD b) else none
  | .set16 i v => if i % 16 = j.val ∧ b < 16 then some (v.getLsbD b) else none
  | .set8l i v => if i % 16 = j.val ∧ b < 8 then some (v.getLsbD b) else none
  | .set8h i v => if i % 16 = j.val ∧ 8 ≤ b ∧ b < 16 then some (v.getLsbD (b - 8)) else none
  | .get64 _ => none
  | .get32 _ => none
  | .get16 _ => none
  | .get8l _ => none
  | .get8h _ => none
  | .getf => none
  | .setf _ => none
  | .decodeExt _ => none
  | .scan _ => none

/-- What bit `b` of slot `j` holds after the operations `ops`, in issue order, when it held `before`: what the last
operation that writes it wrote (20_memory.md R34). -/
def bitAfter (j : Fin 16) (b : Nat) (ops : List Instr) (before : Bool) : Bool :=
  ops.foldl (fun held i => (writtenBit j b i).getD held) before

/-- What an operation writes to the flags container: only SETF writes it (10_state.md R20). -/
def writtenFlags : Instr → Option Word
  | .setf v => some v
  | .get64 _ => none
  | .set64 _ _ => none
  | .get32 _ => none
  | .set32 _ _ => none
  | .get16 _ => none
  | .set16 _ _ => none
  | .get8l _ => none
  | .set8l _ _ => none
  | .get8h _ => none
  | .set8h _ _ => none
  | .getf => none
  | .decodeExt _ => none
  | .scan _ => none

/-- What the flags container holds after the operations `ops` when it held `before`: the operand of the last
SETF (10_state.md R20, 20_memory.md R34). -/
def flagsAfter (ops : List Instr) (before : Word) : Word :=
  ops.foldl (fun held i => (writtenFlags i).getD held) before

/-- The lane a sized get returns: the index, the lane's lowest bit and its width (20_memory.md R30). The other
operations return no lane. -/
def readLane : Instr → Option (Nat × Nat × Nat)
  | .get64 i => some (i, 0, 64)
  | .get32 i => some (i, 0, 32)
  | .get16 i => some (i, 0, 16)
  | .get8l i => some (i, 0, 8)
  | .get8h i => some (i, 8, 8)
  | .set64 _ _ => none
  | .set32 _ _ => none
  | .set16 _ _ => none
  | .set8l _ _ => none
  | .set8h _ _ => none
  | .getf => none
  | .setf _ => none
  | .decodeExt _ => none
  | .scan _ => none

/-- The width of the value a set takes from `rf_wdata`, and 0 for an operation that takes none
(30_encoding.md R43). -/
def valueWidth : Instr → Nat
  | .set64 _ _ => 64
  | .set32 _ _ => 32
  | .set16 _ _ => 16
  | .set8l _ _ => 8
  | .set8h _ _ => 8
  | .setf _ => 64
  | .get64 _ => 0
  | .get32 _ => 0
  | .get16 _ => 0
  | .get8l _ => 0
  | .get8h _ => 0
  | .getf => 0
  | .decodeExt _ => 0
  | .scan _ => 0

/-- The index of a sized set, the five operations that write a slot (10_state.md R19). -/
def setIndex : Instr → Option Nat
  | .set64 i _ => some i
  | .set32 i _ => some i
  | .set16 i _ => some i
  | .set8l i _ => some i
  | .set8h i _ => some i
  | .get64 _ => none
  | .get32 _ => none
  | .get16 _ => none
  | .get8l _ => none
  | .get8h _ => none
  | .getf => none
  | .setf _ => none
  | .decodeExt _ => none
  | .scan _ => none

/-- A request that spells an operation: every one but a command with a reserved code (30_encoding.md R45). -/
def Request.admitted : Request → Bool
  | .rf op _ _ => decide (op.toNat < 12)
  | .dx _ => true
  | .pr _ => true

/-- Nothing presented, from the next step on, is a reserved command outside a reset step: what a safe run needs. -/
def State.admitted (s : State) : Prop :=
  ∀ inp ∈ s.inputs, inp.rst = false → ∀ r, inp.request = some r → Request.admitted r = true

/-- The answer of a scan is one CORE can give: 0 or 1 bytes consumed, and 1 exactly when an extension is reported
(41_prefix_decode.md R67, R68). -/
def ScanResult.wf (r : ScanResult) : Prop := r.consumed ≤ 1 ∧ (r.consumed = 1 ↔ r.ext ≠ none)

/-- What stands on the ports after a step is something CORE can drive: a scan's answer is well-formed. -/
def State.answerOk (s : State) : Prop :=
  match s.answer with
  | .scan r => ScanResult.wf r
  | .nothing => True
  | .word _ => True
  | .word32 _ => True
  | .half _ => True
  | .byte _ => True
  | .ext _ => True

/-- The invariant of the machine. -/
def State.Inv (s : State) : Prop := s.admitted ∧ s.answerOk

end Sys2Proof.Machine
end

