-- ==== Sys2Proof/Certificates/Slice0/Obligations.lean ====
section
/-!
DEFINITION. The statements about CORE for the provers, in the order of OBLIGATIONS.json. Each docstring names the rule of
spec/ it formalises, and where a statement rests on a decision of the spec or of the model (a log entry), says so.
A slot is read as `State.slot` and a bit of a word as `getLsbD`; bit 0 is the least significant (00_scope.md R9).
The codes on `rf_op` that R53 to R64 give are the spec's own choice (decision D3, log 5).
-/

open Sys2Proof Sys2Proof.Machine

/-! ## Reset -/

/-- R26: after reset every slot and the flags container are zero. -/
def Obligations.ResetClearsSlotsAndFlags : Prop :=
  (∀ j, State.reset.slot j = 0x0000000000000000#64) ∧ State.reset.flags = 0x0000000000000000#64

/-- The invariant of `StepKeepsTheInvariant` holds at reset, where nothing is answered and nothing is presented: the model's
choice (logs 1 and 2). -/
def Obligations.ResetMeetsTheInvariant : Prop := State.Inv State.reset

/-! ## The sized accessors: encoding, effect and frame of each -/

/-- R53. -/
def Obligations.Get64ReturnsTheSlot : Prop :=
  (∀ i d, decodeCommand 0x0#4 i d = .ok (.get64 i)) ∧
  (∀ (s : State) (i : Nat) (j : Fin 16), i % 16 = j.val →
    exec (.get64 i) s = .next { s with answer := .word (s.slot j) }) ∧
  (∀ i, exec (.get64 i) State.reset = .next { State.reset with answer := .word 0#64 })

/-- R54. -/
def Obligations.Set64ReplacesTheSlot : Prop :=
  (∀ i d, decodeCommand 0x1#4 i d = .ok (.set64 i d)) ∧
  (∀ (s : State) (i : Nat) (v : Word), ∃ t, exec (.set64 i v) s = .next t ∧
    t.flags = s.flags ∧ t.inputs = s.inputs ∧ t.answer = .nothing ∧
    (∀ k : Fin 16, t.slot k = if k.val = i % 16 then v else s.slot k) ∧
    (∀ i', i' % 16 = i % 16 → exec (.get64 i') t = .next { t with answer := .word v }))

/-- R55, with the result on the port (R44). -/
def Obligations.Get32ReturnsBits31To0 : Prop :=
  (∀ i d, decodeCommand 0x2#4 i d = .ok (.get32 i)) ∧
  (∀ (s : State) (i : Nat) (j : Fin 16), i % 16 = j.val → ∃ (r : Word32) (t : State),
    exec (.get32 i) s = .next t ∧ t = { s with answer := .word32 r } ∧
    (∀ b, b < 32 → r.getLsbD b = (s.slot j).getLsbD b) ∧ t.rfRdata = r.setWidth 64)

/-- R56: the upper half is cleared whatever the slot held. -/
def Obligations.Set32ZeroExtends : Prop :=
  (∀ i d, decodeCommand 0x3#4 i d = .ok (.set32 i (d.setWidth 32))) ∧
  (∀ (s : State) (i : Nat) (v : Word32), ∃ t, exec (.set32 i v) s = .next t ∧
    t.flags = s.flags ∧ t.inputs = s.inputs ∧ t.answer = .nothing ∧
    (∀ k : Fin 16, t.slot k = if k.val = i % 16 then v.setWidth 64 else s.slot k))

/-- R57, with the result on the port (R44). -/
def Obligations.Get16ReturnsBits15To0 : Prop :=
  (∀ i d, decodeCommand 0x4#4 i d = .ok (.get16 i)) ∧
  (∀ (s : State) (i : Nat) (j : Fin 16), i % 16 = j.val → ∃ (r : Half) (t : State),
    exec (.get16 i) s = .next t ∧ t = { s with answer := .half r } ∧
    (∀ b, b < 16 → r.getLsbD b = (s.slot j).getLsbD b) ∧ t.rfRdata = r.setWidth 64)

/-- R58: bits 63:16 are preserved. -/
def Obligations.Set16PreservesBits63To16 : Prop :=
  (∀ i d, decodeCommand 0x5#4 i d = .ok (.set16 i (d.setWidth 16))) ∧
  (∀ (s : State) (i : Nat) (v : Half), ∃ t, exec (.set16 i v) s = .next t ∧
    t.flags = s.flags ∧ t.inputs = s.inputs ∧ t.answer = .nothing ∧
    (∀ (k : Fin 16) (b : Nat), (t.slot k).getLsbD b =
      if k.val = i % 16 ∧ b < 16 then v.getLsbD b else (s.slot k).getLsbD b))

/-- R59, for every slot, with the result on the port (R44). -/
def Obligations.Get8lReturnsBits7To0 : Prop :=
  (∀ i d, decodeCommand 0x6#4 i d = .ok (.get8l i)) ∧
  (∀ (s : State) (i : Nat) (j : Fin 16), i % 16 = j.val → ∃ (r : Byte) (t : State),
    exec (.get8l i) s = .next t ∧ t = { s with answer := .byte r } ∧
    (∀ b, b < 8 → r.getLsbD b = (s.slot j).getLsbD b) ∧ t.rfRdata = r.setWidth 64)

/-- R60: bits 63:8 are preserved. -/
def Obligations.Set8lPreservesBits63To8 : Prop :=
  (∀ i d, decodeCommand 0x7#4 i d = .ok (.set8l i (d.setWidth 8))) ∧
  (∀ (s : State) (i : Nat) (v : Byte), ∃ t, exec (.set8l i v) s = .next t ∧
    t.flags = s.flags ∧ t.inputs = s.inputs ∧ t.answer = .nothing ∧
    (∀ (k : Fin 16) (b : Nat), (t.slot k).getLsbD b =
      if k.val = i % 16 ∧ b < 8 then v.getLsbD b else (s.slot k).getLsbD b))

/-- R61: for every slot and in every state, so also after an extension was recognized; on the port the byte is in
`rf_rdata[7:0]`, not shifted back. -/
def Obligations.Get8hReturnsBits15To8 : Prop :=
  (∀ i d, decodeCommand 0x8#4 i d = .ok (.get8h i)) ∧
  (∀ (s : State) (i : Nat) (j : Fin 16), i % 16 = j.val → ∃ (r : Byte) (t : State),
    exec (.get8h i) s = .next t ∧ t = { s with answer := .byte r } ∧
    (∀ b, b < 8 → r.getLsbD b = (s.slot j).getLsbD (8 + b)) ∧
    t.rfRdata.extractLsb' 0 8 = r ∧ t.rfRdata.extractLsb' 8 56 = 0#56)

/-- R62: bits 63:16 and 7:0 are preserved; the byte is the low byte of the data field; and SET8L then SET8H of one slot
leave `b ++ a` in bits 15:0. -/
def Obligations.Set8hPreservesAllOtherBits : Prop :=
  (∀ i d, decodeCommand 0x9#4 i d = .ok (.set8h i (d.setWidth 8))) ∧
  (∀ (s : State) (i : Nat) (v : Byte), ∃ t, exec (.set8h i v) s = .next t ∧
    t.flags = s.flags ∧ t.inputs = s.inputs ∧ t.answer = .nothing ∧
    (∀ (k : Fin 16) (b : Nat), (t.slot k).getLsbD b =
      if k.val = i % 16 ∧ 8 ≤ b ∧ b < 16 then v.getLsbD (b - 8) else (s.slot k).getLsbD b)) ∧
  (∀ (s : State) (j : Fin 16) (a b : Byte), ∃ t u, exec (.set8l j.val a) s = .next t ∧
    exec (.set8h j.val b) t = .next u ∧ (u.slot j).extractLsb' 0 16 = b ++ a)

/-! ## The flags container -/

/-- R63. -/
def Obligations.GetfReturnsTheFlags : Prop :=
  (∀ i d, decodeCommand 0xA#4 i d = .ok .getf) ∧
  (∀ s : State, exec .getf s = .next { s with answer := .word s.flags }) ∧
  exec .getf State.reset = .next { State.reset with answer := .word 0#64 }

/-- R64: every value is accepted and read back unchanged. -/
def Obligations.SetfReplacesTheFlags : Prop :=
  (∀ i d, decodeCommand 0xB#4 i d = .ok (.setf d)) ∧
  (∀ (s : State) (v : Word), ∃ t, exec (.setf v) s = .next t ∧ t.flags = v ∧
    (∀ k, t.slot k = s.slot k) ∧ t.inputs = s.inputs ∧ t.answer = .nothing ∧
    exec .getf t = .next { t with answer := .word v })

/-- R20, over all operations: only SETF writes the flags container, and only GETF's answer depends on it: no other operation's
slots or answer do. -/
def Obligations.OnlySetfWritesAndOnlyGetfReadsFlags : Prop :=
  (∀ i s t, exec i s = .next t → t.flags ≠ s.flags → ∃ v, i = .setf v) ∧
  (∀ v s, ∃ t, exec (.setf v) s = .next t ∧ t.flags = v) ∧
  (∀ i (s : State) (f : Word), i ≠ .getf → ∃ t u, exec i s = .next t ∧
    exec i { s with flags := f } = .next u ∧ u.slots = t.slots ∧ u.answer = t.answer)

/-! ## The extension decode and the scan -/

/-- R46, what the source fixes: the recognized bytes are a contiguous range of 16 values that starts at some `L` with
`0x40 ≤ L ≤ 0x48`, any other byte answers "absent" and not an error, and the three literals of the source decode as
it says. -/
def Obligations.DecodeExtMeetsTheSourcesConstraints : Prop :=
  ∃ (f : Byte → Option Ext) (L : Nat),
    (∀ b s, exec (.decodeExt b) s = .next { s with answer := .ext (f b) }) ∧
    0x40 ≤ L ∧ L ≤ 0x48 ∧
    (∀ b, f b ≠ none ↔ L ≤ b.toNat ∧ b.toNat ≤ L + 15) ∧
    f 0x48#8 = some { W := true, R := false, X := false, B := false } ∧
    f 0x4F#8 = some { W := true, R := true, X := true, B := true } ∧
    f 0x39#8 = none

/-- DECODE_EXT completes on every byte and in every state with the layout `0100WRXB` of R47: decision D7 of the spec,
from general knowledge (log 8). -/
def Obligations.DecodeExtFollowsTheRexLayout : Prop :=
  ∀ (b : Byte) (s : State), ∃ e : Option Ext, exec (.decodeExt b) s = .next { s with answer := .ext e } ∧
    (e ≠ none ↔ b.toNat / 16 = 4) ∧
    (∀ x, e = some x →
      x.W.toNat * 8 + x.R.toNat * 4 + x.X.toNat * 2 + x.B.toNat = b.toNat - 0x40)

/-- SCAN of a slice that holds at least one byte (R66 without decision D9): what DECODE_EXT answers for its first byte, with one
byte consumed where an extension is reported and none otherwise. -/
def Obligations.ScanReportsTheFirstBytesExtension : Prop :=
  ∀ (b : Byte) (rest : List Byte) (s : State), ∃ e : Option Ext,
    exec (.decodeExt b) s = .next { s with answer := .ext e } ∧
    exec (.scan (b :: rest)) s = .next { s with answer := .scan ⟨e, if e = none then 0 else 1⟩ }

/-- SCAN of the empty slice answers `(None, 0)`: decision D9 of the spec (log 10), which the source does not state. -/
def Obligations.ScanOfTheEmptySlice : Prop :=
  ∀ s : State, exec (.scan []) s = .next { s with answer := .scan ⟨none, 0⟩ }

/-- R29: the slice may have any length, and only its first byte and whether it is empty can affect the result. -/
def Obligations.ScanNeverInspectsBeyondTheFirstByte : Prop :=
  (∀ bytes s, ∃ r, exec (.scan bytes) s = .next { s with answer := .scan r }) ∧
  (∀ bytes bytes' s, bytes.head? = bytes'.head? → exec (.scan bytes) s = exec (.scan bytes') s)

/-- R24: the answers of DECODE_EXT and SCAN are functions of their input alone, and neither reads or writes a slot
or the flags. -/
def Obligations.PrefixUnitsHoldNoState : Prop :=
  ∃ (f : Byte → Option Ext) (g : List Byte → ScanResult), ∀ b bytes s,
    exec (.decodeExt b) s = .next { s with answer := .ext (f b) } ∧
    exec (.scan bytes) s = .next { s with answer := .scan (g bytes) }

/-- R73: a byte outside the range and an empty slice are answered, "prefix absent" and not an error. The range is that of
R47 (decision D7, log 8). -/
def Obligations.ByteOutsideTheRangeIsNoError : Prop :=
  (∀ (b : Byte) (s : State), b.toNat / 16 ≠ 4 → exec (.decodeExt b) s = .next { s with answer := .ext none }) ∧
  (∀ s, ∃ t, exec (.scan []) s = .next t)

/-- R74: after any byte was decoded, and any slice scanned, every accessor (the high-byte ones too) completes, with the
slots, the flags and the answer it gives without that; and SCAN itself completes in every state. -/
def Obligations.RecognizedExtensionAltersNoAccessor : Prop :=
  (∀ p i s t, ((∃ b, p = Instr.decodeExt b) ∨ (∃ bytes, p = Instr.scan bytes)) → exec p s = .next t →
    ∃ u v, exec i s = .next u ∧ exec i t = .next v ∧ SameCore u v ∧ v.answer = u.answer) ∧
  (∀ bytes s, ∃ t, exec (.scan bytes) s = .next t)

/-! ## Whole-machine rules -/

/-- R18: every sized accessor uses its index modulo 16 and in no other way, so `i` and `i + 16 * k` reach the same slot
for every width class, and of an index held in `W ≥ 4` bits only bits 3:0 matter. -/
def Obligations.IndexWrapsModulo16 : Prop :=
  (∀ (i k : Nat) (s : State),
    exec (.get64 (i + 16 * k)) s = exec (.get64 i) s ∧ exec (.get32 (i + 16 * k)) s = exec (.get32 i) s ∧
    exec (.get16 (i + 16 * k)) s = exec (.get16 i) s ∧ exec (.get8l (i + 16 * k)) s = exec (.get8l i) s ∧
    exec (.get8h (i + 16 * k)) s = exec (.get8h i) s ∧
    (∀ v, exec (.set64 (i + 16 * k) v) s = exec (.set64 i v) s) ∧
    (∀ v, exec (.set32 (i + 16 * k) v) s = exec (.set32 i v) s) ∧
    (∀ v, exec (.set16 (i + 16 * k) v) s = exec (.set16 i v) s) ∧
    (∀ v, exec (.set8l (i + 16 * k) v) s = exec (.set8l i v) s) ∧
    (∀ v, exec (.set8h (i + 16 * k) v) s = exec (.set8h i v) s)) ∧
  (∀ (W : Nat) (x : BitVec W), 4 ≤ W → x.toNat % 16 = (x.extractLsb' 0 4).toNat)

/-- R71: every operation is total, no step ends in a fault, and the one step without a next state is the refusal of
a reserved `rf_op` code. -/
def Obligations.OperationsNeverFail : Prop :=
  (∀ i s, ∃ t, exec i s = .next t) ∧
  (∀ s f, step s ≠ .fault f) ∧
  (∀ s r, step s = .refused r → ∃ op idx d rest, s.inputs = Input.present (.rf op idx d) :: rest ∧
    12 ≤ op.toNat)

/-- A reserved code is refused by name outside a reset step (R45, decision D4, log 6; the input list is log 1). -/
def Obligations.ReservedCodesAreRefused : Prop :=
  ∀ (s : State) (op : BitVec 4) (idx : Nat) (d : Word) (rest : List Input), 12 ≤ op.toNat →
    s.inputs = Input.present (.rf op idx d) :: rest → step s = .refused (.reservedOperation op)

/-- The frame over all operations (40_register_file.md section 7, law 4): a slot that changes is the one a sized set
addresses, no operation touches the inputs, and an operation that is no sized set changes no slot. -/
def Obligations.OnlyTheAddressedSlotChanges : Prop :=
  ∀ i s t, exec i s = .next t → t.inputs = s.inputs ∧
    (∀ k : Fin 16, t.slot k ≠ s.slot k → ∃ n, setIndex i = some n ∧ n % 16 = k.val) ∧
    (setIndex i = none → t.slots = s.slots)

/-- R34: operations take effect one at a time in issue order. After any operations, from any state, every bit of every
slot is what the last operation that writes it wrote, and otherwise what it held; the same of the flags; and a get
then returns exactly its lane of that. From reset what a bit held is 0. -/
def Obligations.GetReturnsWhatTheLastWritesLeft : Prop :=
  (∀ (ops : List Instr) (s : State), ∃ t, runOps ops s = .next t ∧
    (∀ (j : Fin 16) (b : Nat), (t.slot j).getLsbD b = bitAfter j b ops ((s.slot j).getLsbD b)) ∧
    t.flags = flagsAfter ops s.flags ∧
    (∀ i n lo w (j : Fin 16), readLane i = some (n, lo, w) → n % 16 = j.val → ∃ u, exec i t = .next u ∧
      ∀ b, u.rfRdata.getLsbD b = (decide (b < w) && bitAfter j (lo + b) ops ((s.slot j).getLsbD (lo + b)))) ∧
    (∃ u, exec .getf t = .next u ∧ u.rfRdata = flagsAfter ops s.flags)) ∧
  (∀ (ops : List Instr), ∃ t, runOps ops State.reset = .next t ∧
    (∀ (j : Fin 16) (b : Nat), (t.slot j).getLsbD b = bitAfter j b ops false) ∧ t.flags = flagsAfter ops 0#64)

/-- Every operation is idempotent: repeating a get returns the same value, and doing a set twice in a row leaves what doing it
once leaves (20_memory.md section 3). -/
def Obligations.OperationsAreIdempotent : Prop :=
  ∀ i s t, exec i s = .next t → exec i t = .next t

/-- Read-after-write at one width, through any index of the slot (40_register_file.md section 7, law 1). -/
def Obligations.ReadAfterWriteReturnsTheValue : Prop :=
  ∀ (i i' : Nat) (s : State), i' % 16 = i % 16 →
    (∀ v, ∃ t, runOps [.set64 i v, .get64 i'] s = .next t ∧ t.answer = .word v) ∧
    (∀ v, ∃ t, runOps [.set32 i v, .get32 i'] s = .next t ∧ t.answer = .word32 v) ∧
    (∀ v, ∃ t, runOps [.set16 i v, .get16 i'] s = .next t ∧ t.answer = .half v) ∧
    (∀ v, ∃ t, runOps [.set8l i v, .get8l i'] s = .next t ∧ t.answer = .byte v) ∧
    (∀ v, ∃ t, runOps [.set8h i v, .get8h i'] s = .next t ∧ t.answer = .byte v)

/-- Sets whose lanes are disjoint commute: SET8L and SET8H, of any slots, and any two sets of different slots
(40_register_file.md section 7, law 7). -/
def Obligations.DisjointSetsCommute : Prop :=
  (∀ i i' a b s, runOps [.set8l i a, .set8h i' b] s = runOps [.set8h i' b, .set8l i a] s) ∧
  (∀ p q m n s, setIndex p = some m → setIndex q = some n → m % 16 ≠ n % 16 →
    runOps [p, q] s = runOps [q, p] s)

/-- A 64-bit or 32-bit set leaves the same slot whatever was set there before (40_register_file.md section 7, laws 2 and 8). -/
def Obligations.WideSetsOverwrite : Prop :=
  ∀ (p : Instr) (s : State) (i : Nat) (j : Fin 16), i % 16 = j.val →
    (∀ v, ∃ t, runOps [p, .set64 i v] s = .next t ∧ t.slot j = v) ∧
    (∀ v, ∃ t u, runOps [p, .set32 i v] s = .next t ∧ t.slot j = v.setWidth 64 ∧
      exec (.get64 i) t = .next u ∧ u.answer = .word (v.setWidth 64))

/-- The five gets of one slot are views of one value: each narrower one is the low part of the wider, and the two bytes
are the halves of the 16-bit view, byte 1 above byte 0 (20_memory.md section 2). -/
def Obligations.ViewsOfOneSlotAgree : Prop :=
  ∀ (s : State) (i : Nat), ∃ (r64 : Word) (r32 : Word32) (r16 : Half) (lo hi : Byte),
    exec (.get64 i) s = .next { s with answer := .word r64 } ∧
    exec (.get32 i) s = .next { s with answer := .word32 r32 } ∧
    exec (.get16 i) s = .next { s with answer := .half r16 } ∧
    exec (.get8l i) s = .next { s with answer := .byte lo } ∧
    exec (.get8h i) s = .next { s with answer := .byte hi } ∧
    r64.setWidth 32 = r32 ∧ r32.setWidth 16 = r16 ∧ hi ++ lo = r16

/-- `mov64 d, s` copies slot `s` to slot `d`: the source slot and every other one is unchanged, and where both indices name
one slot the whole state of CORE is (30_encoding.md section 5, decision D19). -/
def Obligations.Mov64CopiesOneSlot : Prop :=
  ∀ (d src : Nat) (s : State) (jd js : Fin 16), d % 16 = jd.val → src % 16 = js.val →
    ∃ t, mov64 d src s = .next t ∧ t.slot jd = s.slot js ∧ (∀ k, k ≠ jd → t.slot k = s.slot k) ∧
      t.flags = s.flags ∧ (jd = js → SameCore s t)

/-! ## Encoding -/

/-- Decoding what the encoder puts on the ports gives the operation back, for every operation and every operand. -/
def Obligations.DecodeOfEncode : Prop := ∀ i, decode (encode i) = .ok i

/-- The packed command of R42, at every width of the index field: every operation but DECODE_EXT and SCAN has one, and one
whose index fits the field is read back from it whole (decision D3, log 5). -/
def Obligations.PackedCommandRoundTrip : Prop :=
  ∀ (W : Nat) (i : Instr), (∀ b, i ≠ .decodeExt b) → (∀ bytes, i ≠ .scan bytes) → i.fits W = true →
    ∃ cmd, encodePacked W i = some cmd ∧ decodePacked W cmd = .ok i

/-- No bit an operation uses is dropped: a packed command that decodes agrees with the command the encoder writes for that
operation in the code, in the index where the operation has one, and in the bits of its value (30_encoding.md
section 2, decision D3, log 5). The last clause, that the encoder's other data bits are zero, is said of a get's data field by
R42; of the data bits a set ignores it is the model's choice (log 19). -/
def Obligations.DecodingDropsNoUsedBit : Prop :=
  ∀ (W : Nat) (cmd : BitVec (4 + W + 64)) (i : Instr), decodePacked W cmd = .ok i →
    ∃ cmd', encodePacked W i = some cmd' ∧
      cmd'.extractLsb' (64 + W) 4 = cmd.extractLsb' (64 + W) 4 ∧
      (i.index? ≠ none → cmd'.extractLsb' 64 W = cmd.extractLsb' 64 W) ∧
      (∀ b, b < valueWidth i → cmd'.getLsbD b = cmd.getLsbD b) ∧
      (∀ b, valueWidth i ≤ b → b < 64 → cmd'.getLsbD b = false)

/-- Commands of 30_encoding.md section 2 and the opcode table written out as 76 bits, `op`, `idx`, `data`, decode to the operations they
stand for, as do one byte and one slice (decisions D3 and D7, logs 5 and 8). -/
def Obligations.WrittenOutWordsDecode : Prop :=
  decodePacked 8 0x1001122334455667788#76 = .ok (.set64 0 0x1122334455667788#64) ∧
  decodePacked 8 0x0100000000000000000#76 = .ok (.get64 16) ∧
  decodePacked 8 0x3120000000000C0FFEE#76 = .ok (.set32 18 0x00C0FFEE#32) ∧
  decodePacked 8 0x902FFFFFFFFFFFFFFAB#76 = .ok (.set8h 2 0xAB#8) ∧
  decodePacked 8 0xB050000000000000246#76 = .ok (.setf 0x246#64) ∧
  decodePacked 8 0xC000000000000000000#76 = .error (.reservedOperation 0xC#4) ∧
  decode (.dx 0x48#8) = .ok (.decodeExt 0x48#8) ∧
  decode (.pr [0x4C#8, 0x89#8, 0xC8#8]) = .ok (.scan [0x4C#8, 0x89#8, 0xC8#8])

/-! ## Steps and runs -/

/-- A step runs the decoded operation: when what is presented decodes to `i`, the step is `exec i` with that input taken.
That an input list feeds the step is the model's choice (log 1). -/
def Obligations.StepRunsTheDecodedOperation : Prop :=
  ∀ (s : State) (r : Request) (i : Instr) (rest : List Input), decode r = .ok i →
    s.inputs = Input.present r :: rest → step s = exec i { s with inputs := rest }

/-- A word of the opcode table placed by `withFetchWord` is what the very next step runs (logs 1, 14 and 15). -/
def Obligations.PresentedWordRunsNext : Prop :=
  ∀ (s : State) (nbits w : Nat) (i : Instr), decodeTableWord nbits w = some i →
    step (s.withFetchWord nbits w) = exec i s

/-- A step with `rst = 1` leaves the reset values, and whatever is presented in it has no effect (R81, decision D16, log 12);
that the step takes the input is log 1. -/
def Obligations.ResetStepClearsCore : Prop :=
  ∀ (s : State) (req : Option Request) (rest : List Input), s.inputs = ⟨true, req⟩ :: rest →
    ∃ t, step s = .next t ∧ (∀ j, t.slot j = 0#64) ∧ t.flags = 0#64 ∧ t.inputs = rest

/-- A step in which nothing is presented leaves CORE unchanged and drives 0 on `rf_rdata` (R39, decision D1). The
input list and its empty end are the model's choice (logs 1 and 13). -/
def Obligations.QuietStepChangesNothing : Prop :=
  ∀ s : State, (s.inputs = [] ∨ ∃ rest, s.inputs = Input.quiet :: rest) →
    ∃ t, step s = .next t ∧ SameCore s t ∧ t.rfRdata = 0#64 ∧ t.inputs = s.inputs.tail

/-- Operations presented one after another run in issue order: a run of as many steps is the operations' meanings one after the
other, from every state (20_memory.md section 4; the input list is log 1). -/
def Obligations.StreamRunsInIssueOrder : Prop :=
  ∀ (ops : List Instr) (rest : List Input) (s : State),
    s.inputs = ops.map (fun i => Input.present (encode i)) ++ rest →
    Sys2Proof.core.run ops.length s = runOps ops { s with inputs := rest }

/-- A run in which no reserved code is presented outside reset never stops, for any number of steps (60_exceptions.md
section 1). That a run takes one input a step is the model's choice of an input list (log 1), and that it goes on past the
end of the list, the ports being quiet there, is log 13. -/
def Obligations.AdmittedRunsNeverStop : Prop :=
  ∀ (n : Nat) (s : State), State.admitted s →
    ∃ t, Sys2Proof.core.run n s = .next t ∧ t.inputs = s.inputs.drop n ∧ State.admitted t

/-- The machine's invariant, kept by every step: nothing presented is a reserved command outside a reset step, and a scan's
answer is one CORE can give, 0 or 1 bytes consumed and 1 exactly with an extension (41_prefix_decode.md section 2; the input list
is log 1). From a state that meets it a step does answer a next state, also at the end of the list, where the ports are
quiet (log 13). -/
def Obligations.StepKeepsTheInvariant : Prop :=
  (∀ s t, State.Inv s → step s = .next t → State.Inv t) ∧ (∀ s, State.Inv s → ∃ t, step s = .next t)

/-! ## The hardware ports -/

/-- The combinational ports of DECODE_EXT and PR agree with the two operations: present exactly with an extension, the nibble
its bits (read only when present, log 9), and the count consumed (30_encoding.md section 1, decisions D1 and D7, log 8). -/
def Obligations.ExtensionPortsAgreeWithOperations : Prop :=
  ∀ (b : Byte) (rest : List Byte) (s : State), ∃ (e : Option Ext) (r : ScanResult),
    exec (.decodeExt b) s = .next { s with answer := .ext e } ∧
    exec (.scan (b :: rest)) s = .next { s with answer := .scan r } ∧
    dxPresent b = e.isSome ∧ (∀ x, e = some x → dxExt b = Ext.nibble x) ∧
    prPresent true b = r.ext.isSome ∧ (∀ x, r.ext = some x → prExt true b = Ext.nibble x) ∧
    prConsumed true b = r.consumed ∧ prPresent false b = false ∧ prConsumed false b = 0

/-- The clocked register file of R39, a write-mask datapath on `rf_op[0]` and `rf_op[3:1]`, and the model's step are the same machine: on
every command that is not reserved, the edge leaves the slots and flags the step leaves, and `rf_rdata` is what the step
returned; the same without a command, and of slots and flags in a reset step (decisions D1, D3, D5 and D16;
logs 1, 5, 7, 12, 13 and 22). -/
def Obligations.ClockedRegisterFileRefinesTheStep : Prop :=
  (∀ (s : State) (op : BitVec 4) (idx : Nat) (d : Word) (rest : List Input), op.toNat < 12 →
    s.inputs = Input.present (.rf op idx d) :: rest → ∃ t, step s = .next t ∧
      t.slots = rfNextSlots ⟨false, true, op, idx, d⟩ s ∧ t.flags = rfNextFlags ⟨false, true, op, idx, d⟩ s ∧
      t.rfRdata = rfRdata ⟨false, true, op, idx, d⟩ s) ∧
  (∀ (s : State) (op : BitVec 4) (idx : Nat) (d : Word) (rest : List Input), s.inputs = Input.quiet :: rest →
    ∃ t, step s = .next t ∧
      t.slots = rfNextSlots ⟨false, false, op, idx, d⟩ s ∧ t.flags = rfNextFlags ⟨false, false, op, idx, d⟩ s ∧
      t.rfRdata = rfRdata ⟨false, false, op, idx, d⟩ s) ∧
  (∀ (s : State) (p : RfPorts) (req : Option Request) (rest : List Input), p.rst = true →
    s.inputs = ⟨true, req⟩ :: rest → ∃ t, step s = .next t ∧ t.slots = rfNextSlots p s ∧ t.flags = rfNextFlags p s)
end

