-- ==== Sys2Proof/Laws/Decode.lean ====
section
/-!
SUPPORT. Decoding said once: the value operand as a truncation, the fields of a packed command, and the codes a
command is accepted with.
-/

namespace Sys2Proof

/-- The value operand is the truncation of `rf_wdata` (R43). -/
theorem operandValue_eq_setWidth (n : Nat) (wdata : Word) : operandValue n wdata = wdata.setWidth n := by
  apply BitVec.eq_of_getLsbD_eq
  intro k hk
  simp [operandValue, hk]

/-- A value of at most 64 bits survives the trip through `rf_wdata`. -/
theorem operandValue_setWidth {n : Nat} (hn : n ≤ 64) (v : BitVec n) :
    operandValue n (v.setWidth 64) = v := by
  rw [operandValue_eq_setWidth]
  apply BitVec.eq_of_getLsbD_eq
  intro k hk
  have : k < 64 := by omega
  simp [*]

section packed
variable (W : Nat) (op : BitVec 4) (idx : Nat) (wdata : Word)

@[simp] theorem packCommand_op : (packCommand W op idx wdata).extractLsb' (64 + W) 4 = op := by
  apply BitVec.eq_of_getLsbD_eq
  intro k hk
  have h₁ : ¬ 64 + W + k < 64 := by omega
  have h₂ : ¬ 64 + W + k - 64 < W := by omega
  have h₃ : 64 + W + k - 64 - W = k := by omega
  simp only [packCommand, BitVec.getLsbD_extractLsb', BitVec.getLsbD_append, h₁, h₂, h₃, hk]
  simp

@[simp] theorem packCommand_index :
    (packCommand W op idx wdata).extractLsb' 64 W = BitVec.ofNat W idx := by
  apply BitVec.eq_of_getLsbD_eq
  intro k hk
  have h₁ : ¬ 64 + k < 64 := by omega
  have h₂ : 64 + k - 64 = k := by omega
  simp only [packCommand, BitVec.getLsbD_extractLsb', BitVec.getLsbD_append, h₁, h₂, hk]
  simp

@[simp] theorem packCommand_data : (packCommand W op idx wdata).extractLsb' 0 64 = wdata := by
  apply BitVec.eq_of_getLsbD_eq
  intro k hk
  simp only [packCommand, BitVec.getLsbD_extractLsb', BitVec.getLsbD_append, Nat.zero_add, hk]
  simp

/-- Unpacking a packed command gives its ports back, when the index fits the field. -/
theorem unpackCommand_packCommand (h : idx < 2 ^ W) :
    unpackCommand W (packCommand W op idx wdata) = .rf op idx wdata := by
  simp [unpackCommand, Nat.mod_eq_of_lt h]

end packed

end Sys2Proof
end

