-- ==== Sys2Proof/Laws/Operands.lean ====
section
/-!
SUPPORT. The lanes of a slot bit by bit (20_memory.md R30): which bit of the slot a get returns, and where each bit of a
slot comes from after a set. Meanings are reasoned about through these and never by unfolding the lanes.
-/

namespace Sys2Proof.Machine

@[simp] theorem widx_val (i : Nat) : (widx i).val = i % 16 := rfl

/-- The wrapped index depends on `i mod 16` only (R18). -/
theorem widx_eq_iff (i k : Nat) : widx i = widx k ↔ i % 16 = k % 16 := by simp [widx]

theorem widx_eq_of_mod {i : Nat} {j : Fin 16} (h : i % 16 = j.val) : widx i = j := Fin.ext h

section lanes
variable (x : Word) (b : Nat)

@[simp] theorem getLsbD_lane64 : (lane64 x).getLsbD b = x.getLsbD b := rfl

@[simp] theorem getLsbD_lane32 : (lane32 x).getLsbD b = (decide (b < 32) && x.getLsbD b) := by
  simp [lane32]

@[simp] theorem getLsbD_lane16 : (lane16 x).getLsbD b = (decide (b < 16) && x.getLsbD b) := by
  simp [lane16]

@[simp] theorem getLsbD_laneLow8 : (laneLow8 x).getLsbD b = (decide (b < 8) && x.getLsbD b) := by
  simp [laneLow8]

@[simp] theorem getLsbD_laneHigh8 : (laneHigh8 x).getLsbD b = (decide (b < 8) && x.getLsbD (8 + b)) := by
  simp [laneHigh8]

/-! The same where `simp` has put a bit into its normal form, `[b]` with a proof of the bound. -/

@[simp] theorem getElem_lane32 (h : b < 32) : (lane32 x)[b] = x.getLsbD b := by
  rw [← BitVec.getLsbD_eq_getElem, getLsbD_lane32]; simp [h]

@[simp] theorem getElem_lane16 (h : b < 16) : (lane16 x)[b] = x.getLsbD b := by
  rw [← BitVec.getLsbD_eq_getElem, getLsbD_lane16]; simp [h]

@[simp] theorem getElem_laneLow8 (h : b < 8) : (laneLow8 x)[b] = x.getLsbD b := by
  rw [← BitVec.getLsbD_eq_getElem, getLsbD_laneLow8]; simp [h]

@[simp] theorem getElem_laneHigh8 (h : b < 8) : (laneHigh8 x)[b] = x.getLsbD (8 + b) := by
  rw [← BitVec.getLsbD_eq_getElem, getLsbD_laneHigh8]; simp [h]

end lanes

section puts
variable (x : Word) (b : Nat)

@[simp] theorem getLsbD_put64 (v : Word) : (put64 x v).getLsbD b = v.getLsbD b := rfl

@[simp] theorem getLsbD_put32 (v : Word32) :
    (put32 x v).getLsbD b = (decide (b < 32) && v.getLsbD b) := by
  simp only [put32, BitVec.getLsbD_append, BitVec.getLsbD_zero]
  by_cases h : b < 32 <;> simp [h]

@[simp] theorem getLsbD_put16 (v : Half) :
    (put16 x v).getLsbD b = if b < 16 then v.getLsbD b else x.getLsbD b := by
  simp only [put16, BitVec.getLsbD_append, BitVec.getLsbD_extractLsb']
  by_cases h : b < 16
  · simp [h]
  · by_cases h' : b < 64
    · have : b - 16 < 48 := by omega
      have : 16 + (b - 16) = b := by omega
      simp [*]
    · have : ¬ b - 16 < 48 := by omega
      simp [*, BitVec.getLsbD_of_ge x b (by omega)]

@[simp] theorem getLsbD_putLow8 (v : Byte) :
    (putLow8 x v).getLsbD b = if b < 8 then v.getLsbD b else x.getLsbD b := by
  simp only [putLow8, BitVec.getLsbD_append, BitVec.getLsbD_extractLsb']
  by_cases h : b < 8
  · simp [h]
  · by_cases h' : b < 64
    · have : b - 8 < 56 := by omega
      have : 8 + (b - 8) = b := by omega
      simp [*]
    · have : ¬ b - 8 < 56 := by omega
      simp [*, BitVec.getLsbD_of_ge x b (by omega)]

@[simp] theorem getLsbD_putHigh8 (v : Byte) :
    (putHigh8 x v).getLsbD b = if 8 ≤ b ∧ b < 16 then v.getLsbD (b - 8) else x.getLsbD b := by
  simp only [putHigh8, BitVec.getLsbD_append, BitVec.getLsbD_extractLsb']
  by_cases h : b < 8
  · have : ¬ 8 ≤ b := by omega
    simp [*]
  · by_cases h₁ : b < 16
    · have : b - 8 < 8 := by omega
      have : 8 ≤ b := by omega
      simp [*]
    · by_cases h' : b < 64
      · have : ¬ b - 8 < 8 := by omega
        have : b - 8 - 8 < 48 := by omega
        have : 16 + (b - 8 - 8) = b := by omega
        simp [*]
      · have : ¬ b - 8 < 8 := by omega
        have : ¬ b - 8 - 8 < 48 := by omega
        simp [*, BitVec.getLsbD_of_ge x b (by omega)]

@[simp] theorem getElem_put32 (v : Word32) (h : b < 64) :
    (put32 x v)[b] = (decide (b < 32) && v.getLsbD b) := by
  rw [← BitVec.getLsbD_eq_getElem, getLsbD_put32]

@[simp] theorem getElem_put16 (v : Half) (h : b < 64) :
    (put16 x v)[b] = if b < 16 then v.getLsbD b else x.getLsbD b := by
  rw [← BitVec.getLsbD_eq_getElem, getLsbD_put16]

@[simp] theorem getElem_putLow8 (v : Byte) (h : b < 64) :
    (putLow8 x v)[b] = if b < 8 then v.getLsbD b else x.getLsbD b := by
  rw [← BitVec.getLsbD_eq_getElem, getLsbD_putLow8]

@[simp] theorem getElem_putHigh8 (v : Byte) (h : b < 64) :
    (putHigh8 x v)[b] = if 8 ≤ b ∧ b < 16 then v.getLsbD (b - 8) else x.getLsbD b := by
  rw [← BitVec.getLsbD_eq_getElem, getLsbD_putHigh8]

end puts

/-- A scan reports 0 or 1 bytes consumed, and 1 exactly when it reports an extension. -/
theorem scanOf_cases (bytes : List Byte) :
    scanOf bytes = ⟨none, 0⟩ ∨ ∃ b rest e, bytes = b :: rest ∧ extensionOf b = some e ∧
      scanOf bytes = ⟨some e, 1⟩ := by
  cases bytes with
  | nil => exact .inl rfl
  | cons b rest =>
    cases h : extensionOf b with
    | none => exact .inl (by simp [scanOf, h])
    | some e => exact .inr ⟨b, rest, e, rfl, h, by simp [scanOf, h]⟩

end Sys2Proof.Machine
end

