-- ==== Sys2Proof/Laws/State.lean ====
section
/-!
SUPPORT. What each update of the state does to each field, once.
-/

namespace Sys2Proof.Machine

section setSlot
variable (s : State) (j k : Fin 16) (v : Word)

@[simp] theorem State.setSlot_flags : (s.setSlot j v).flags = s.flags := rfl
@[simp] theorem State.setSlot_answer : (s.setSlot j v).answer = s.answer := rfl
@[simp] theorem State.setSlot_inputs : (s.setSlot j v).inputs = s.inputs := rfl

/-- Reading slot `k` after slot `j` was replaced. -/
@[simp] theorem State.setSlot_slot : (s.setSlot j v).slot k = if j = k then v else s.slot k := by
  simp [State.setSlot, State.slot, Vector.getElem_set, Fin.ext_iff]

end setSlot

section answerWith
variable (s : State) (a : Answer)

@[simp] theorem State.answerWith_slots : (s.answerWith a).slots = s.slots := rfl
@[simp] theorem State.answerWith_flags : (s.answerWith a).flags = s.flags := rfl
@[simp] theorem State.answerWith_answer : (s.answerWith a).answer = a := rfl
@[simp] theorem State.answerWith_inputs : (s.answerWith a).inputs = s.inputs := rfl
@[simp] theorem State.answerWith_slot (k : Fin 16) : (s.answerWith a).slot k = s.slot k := rfl

end answerWith

section clear
variable (s : State)

@[simp] theorem State.clear_slots : s.clear.slots = State.reset.slots := rfl
@[simp] theorem State.clear_flags : s.clear.flags = 0#64 := rfl
@[simp] theorem State.clear_answer : s.clear.answer = .nothing := rfl
@[simp] theorem State.clear_inputs : s.clear.inputs = s.inputs := rfl

end clear

section putFlags
variable (s : State) (v : Word)

@[simp] theorem State.putFlags_slots : (s.putFlags v).slots = s.slots := rfl
@[simp] theorem State.putFlags_slot (k : Fin 16) : (s.putFlags v).slot k = s.slot k := rfl
@[simp] theorem State.putFlags_flags : (s.putFlags v).flags = v := rfl
@[simp] theorem State.putFlags_answer : (s.putFlags v).answer = .nothing := rfl
@[simp] theorem State.putFlags_inputs : (s.putFlags v).inputs = s.inputs := rfl

end putFlags

@[simp] theorem State.withFetchWord_inputs (s : State) (nbits w : Nat) :
    (s.withFetchWord nbits w).inputs = Input.present (tableRequest nbits w) :: s.inputs := rfl

/-- Every slot of the reset state is zero. -/
@[simp] theorem State.reset_slot (j : Fin 16) : State.reset.slot j = 0#64 := by
  simp [State.reset, State.slot]

/-- Two states with the same contents of every slot have the same slots. -/
theorem State.slots_ext {s t : State} (h : ∀ j, s.slot j = t.slot j) : s.slots = t.slots := by
  apply Vector.ext
  intro i hi
  exact h ⟨i, hi⟩

/-- Two states that agree in every slot, the flags, the answer and the inputs are equal. -/
theorem State.ext_slots {s t : State} (hs : ∀ j, s.slot j = t.slot j) (hf : s.flags = t.flags)
    (ha : s.answer = t.answer) (hi : s.inputs = t.inputs) : s = t := by
  obtain ⟨_, _, _, _⟩ := s
  obtain ⟨_, _, _, _⟩ := t
  have := State.slots_ext hs
  simp_all

end Sys2Proof.Machine
end

