-- ==== Sys2Proof/Laws/Exec.lean ====
section
/-!
SUPPORT. Everything the shared operations, an operation and a step can do, said once.
-/

namespace Sys2Proof.Machine

section shared
variable (s : State) (i : Nat) (read : Word → Answer) (write : Word → Word)

@[simp] theorem State.get_slot (k : Fin 16) : (s.get i read).slot k = s.slot k := rfl
@[simp] theorem State.get_slots : (s.get i read).slots = s.slots := rfl
@[simp] theorem State.get_flags : (s.get i read).flags = s.flags := rfl
@[simp] theorem State.get_inputs : (s.get i read).inputs = s.inputs := rfl
@[simp] theorem State.get_answer : (s.get i read).answer = read (s.slot (widx i)) := rfl

@[simp] theorem State.put_slot (k : Fin 16) :
    (s.put i write).slot k = if widx i = k then write (s.slot k) else s.slot k := by
  simp only [State.put, State.answerWith_slot, State.setSlot_slot]
  split
  · next h => rw [h]
  · rfl

@[simp] theorem State.put_flags : (s.put i write).flags = s.flags := rfl
@[simp] theorem State.put_inputs : (s.put i write).inputs = s.inputs := rfl
@[simp] theorem State.put_answer : (s.put i write).answer = .nothing := rfl

end shared

/-- The five ways an operation ends: a get of a lane, a set of a lane, a read or a write of the flags, or an
answer that touches neither. -/
theorem exec_cases (i : Instr) (s : State) :
    (∃ k read, i.index? = some k ∧ setIndex i = none ∧ exec i s = .next (s.get k read)) ∨
    (∃ k write, i.index? = some k ∧ setIndex i = some k ∧ exec i s = .next (s.put k write)) ∨
    (i = .getf ∧ exec i s = .next s.getFlags) ∨
    (∃ v, i = .setf v ∧ exec i s = .next (s.putFlags v)) ∨
    (∃ b, i = .decodeExt b ∧ exec i s = .next (s.answerWith (.ext (extensionOf b)))) ∨
    (∃ bytes, i = .scan bytes ∧ exec i s = .next (s.answerWith (.scan (scanOf bytes)))) := by
  cases i with
  | get64 k => exact .inl ⟨k, _, rfl, rfl, rfl⟩
  | get32 k => exact .inl ⟨k, _, rfl, rfl, rfl⟩
  | get16 k => exact .inl ⟨k, _, rfl, rfl, rfl⟩
  | get8l k => exact .inl ⟨k, _, rfl, rfl, rfl⟩
  | get8h k => exact .inl ⟨k, _, rfl, rfl, rfl⟩
  | set64 k v => exact .inr (.inl ⟨k, _, rfl, rfl, rfl⟩)
  | set32 k v => exact .inr (.inl ⟨k, _, rfl, rfl, rfl⟩)
  | set16 k v => exact .inr (.inl ⟨k, _, rfl, rfl, rfl⟩)
  | set8l k v => exact .inr (.inl ⟨k, _, rfl, rfl, rfl⟩)
  | set8h k v => exact .inr (.inl ⟨k, _, rfl, rfl, rfl⟩)
  | getf => exact .inr (.inr (.inl ⟨rfl, rfl⟩))
  | setf v => exact .inr (.inr (.inr (.inl ⟨v, rfl, rfl⟩)))
  | decodeExt b => exact .inr (.inr (.inr (.inr (.inl ⟨b, rfl, rfl⟩))))
  | scan bytes => exact .inr (.inr (.inr (.inr (.inr ⟨bytes, rfl, rfl⟩))))

section frame
variable {i : Instr} {s t : State}

/-- No operation touches what is presented after it. -/
theorem exec_inputs (h : exec i s = .next t) : t.inputs = s.inputs := by
  cases i <;> cases h <;> rfl

/-- The flags container after an operation: written by SETF alone. -/
theorem exec_flags (h : exec i s = .next t) : t.flags = (writtenFlags i).getD s.flags := by
  cases i <;> cases h <;> rfl

/-- An operation does not depend on what is presented after it. -/
theorem exec_with_inputs (h : exec i s = .next t) (l : List Input) :
    exec i { s with inputs := l } = .next { t with inputs := l } := by
  cases i <;> cases h <;> rfl

/-- Every bit of every slot after an operation: what the lane table says the operation writes there, and
otherwise what it held. -/
theorem exec_slot_bit (h : exec i s = .next t) (j : Fin 16) (b : Nat) :
    (t.slot j).getLsbD b = (writtenBit j b i).getD ((s.slot j).getLsbD b) := by
  cases i with
  | get64 k => cases h; rfl
  | get32 k => cases h; rfl
  | get16 k => cases h; rfl
  | get8l k => cases h; rfl
  | get8h k => cases h; rfl
  | getf => cases h; rfl
  | setf v => cases h; rfl
  | decodeExt b => cases h; rfl
  | scan bytes => cases h; rfl
  | set64 k v =>
    cases h
    by_cases hk : k % 16 = j.val <;> simp [writtenBit, Fin.ext_iff, hk]
  | set32 k v =>
    cases h
    by_cases hk : k % 16 = j.val <;> simp [writtenBit, Fin.ext_iff, hk]
  | set16 k v =>
    cases h
    by_cases hk : k % 16 = j.val <;> by_cases hw : b < 16 <;> simp [writtenBit, Fin.ext_iff, hk, hw]
  | set8l k v =>
    cases h
    by_cases hk : k % 16 = j.val <;> by_cases hw : b < 8 <;> simp [writtenBit, Fin.ext_iff, hk, hw]
  | set8h k v =>
    cases h
    by_cases hk : k % 16 = j.val <;> by_cases hw : 8 ≤ b ∧ b < 16 <;>
      simp [writtenBit, Fin.ext_iff, hk, hw]

end frame

/-! ## A step -/

/-- Once nothing more is presented, the ports are quiet. -/
@[simp] theorem State.takeInput_nil {s : State} (h : s.inputs = []) : s.takeInput = (Input.quiet, s) := by
  simp [State.takeInput, h]

@[simp] theorem State.takeInput_cons {s : State} {inp : Input} {rest : List Input}
    (h : s.inputs = inp :: rest) : s.takeInput = (inp, { s with inputs := rest }) := by
  simp [State.takeInput, h]

theorem step_nil {s : State} (h : s.inputs = []) : step s = .next s.idle := by
  simp [step, h, Input.quiet]

/-- A reset step, whatever is presented in it. -/
theorem step_rst {s : State} {req : Option Request} {rest : List Input} (h : s.inputs = ⟨true, req⟩ :: rest) :
    step s = .next ({ s with inputs := rest } : State).clear := by
  simp [step, State.takeInput_cons h]

theorem step_quiet {s : State} {rest : List Input} (h : s.inputs = Input.quiet :: rest) :
    step s = .next ({ s with inputs := rest } : State).idle := by
  simp [step, State.takeInput_cons h, Input.quiet]

/-- A step answers a next state in one of three ways: reset, nothing asked, or the meaning of the decoded operation. -/
theorem step_cases {s t : State} (h : step s = .next t) :
    (s.takeInput.1.rst = true ∧ t = s.takeInput.2.clear) ∨
    (s.takeInput.1.rst = false ∧ s.takeInput.1.request = none ∧ t = s.takeInput.2.idle) ∨
    (∃ r i, s.takeInput.1.rst = false ∧ s.takeInput.1.request = some r ∧ decode r = .ok i ∧
      exec i s.takeInput.2 = .next t) := by
  unfold step at h
  split at h
  next inp s' heq =>
    simp only [heq]
    split at h
    · next hr => cases h; exact .inl ⟨hr, rfl⟩
    · next hr =>
      have hr : inp.rst = false := by simpa using hr
      split at h
      · next hn => cases h; exact .inr (.inl ⟨hr, hn, rfl⟩)
      · next r hs =>
        split at h
        · next i hi => exact .inr (.inr ⟨r, i, hr, hs, hi, h⟩)
        · cases h

/-! ## A run -/

@[simp] theorem core_run_zero (s : State) : Sys2Proof.core.run 0 s = .next s := rfl

/-- A run of one step more, after the first step. -/
theorem core_run_succ {n : Nat} {s s' : State} (h : step s = .next s') :
    Sys2Proof.core.run (n + 1) s = Sys2Proof.core.run n s' := by
  have h' : Sys2Proof.core.step s = .next s' := h
  simp only [Host.Core.run, h']

end Sys2Proof.Machine
end

