-- ==== Sys2Proof/Laws/PerInstr.lean ====
section
/-!
SUPPORT. Facts stated of each operation as syntax, one lemma per constructor.
`OpCode`: the encoder never writes a reserved code, and bit 0 of the code it writes tells a set from a get
(30_encoding.md R41, R45).
-/

namespace Sys2Proof.Laws.OpCode

/-- The operations whose effect is a write (R41, the column "kind"). -/
def isSet : Instr → Bool
  | .set64 _ _ => true
  | .set32 _ _ => true
  | .set16 _ _ => true
  | .set8l _ _ => true
  | .set8h _ _ => true
  | .setf _ => true
  | .get64 _ => false
  | .get32 _ => false
  | .get16 _ => false
  | .get8l _ => false
  | .get8h _ => false
  | .getf => false
  | .decodeExt _ => false
  | .scan _ => false

/-- The code the encoder writes is one of the twelve, with bit 0 set exactly for a set. -/
def Statement (i : Instr) : Prop :=
  ∀ op idx wdata, encode i = .rf op idx wdata → op.toNat < 12 ∧ op.getLsbD 0 = isSet i

theorem get64 (i : Nat) : Statement (.get64 i) := by rintro _ _ _ ⟨⟩; exact ⟨by decide, rfl⟩
theorem set64 (i : Nat) (v : Word) : Statement (.set64 i v) := by rintro _ _ _ ⟨⟩; exact ⟨by decide, rfl⟩
theorem get32 (i : Nat) : Statement (.get32 i) := by rintro _ _ _ ⟨⟩; exact ⟨by decide, rfl⟩
theorem set32 (i : Nat) (v : Word32) : Statement (.set32 i v) := by rintro _ _ _ ⟨⟩; exact ⟨by decide, rfl⟩
theorem get16 (i : Nat) : Statement (.get16 i) := by rintro _ _ _ ⟨⟩; exact ⟨by decide, rfl⟩
theorem set16 (i : Nat) (v : Half) : Statement (.set16 i v) := by rintro _ _ _ ⟨⟩; exact ⟨by decide, rfl⟩
theorem get8l (i : Nat) : Statement (.get8l i) := by rintro _ _ _ ⟨⟩; exact ⟨by decide, rfl⟩
theorem set8l (i : Nat) (v : Byte) : Statement (.set8l i v) := by rintro _ _ _ ⟨⟩; exact ⟨by decide, rfl⟩
theorem get8h (i : Nat) : Statement (.get8h i) := by rintro _ _ _ ⟨⟩; exact ⟨by decide, rfl⟩
theorem set8h (i : Nat) (v : Byte) : Statement (.set8h i v) := by rintro _ _ _ ⟨⟩; exact ⟨by decide, rfl⟩
theorem getf : Statement .getf := by rintro _ _ _ ⟨⟩; exact ⟨by decide, rfl⟩
theorem setf (v : Word) : Statement (.setf v) := by rintro _ _ _ ⟨⟩; exact ⟨by decide, rfl⟩
theorem decodeExt (b : Byte) : Statement (.decodeExt b) := by rintro _ _ _ ⟨⟩
theorem scan (bytes : List Byte) : Statement (.scan bytes) := by rintro _ _ _ ⟨⟩

end Sys2Proof.Laws.OpCode
end

