-- ==== Sys2Proof/Laws/Ports.lean ====
section
/-!
SUPPORT. The write-mask datapath of the ports against the lanes of a slot: each mask bit by bit, what the read
multiplexer drives, and what a masked write leaves.
-/

namespace Sys2Proof.Machine

section masks
variable {b : Nat} (hb : b < 64)
include hb

theorem mask32_bit : (0x00000000FFFFFFFF#64).getLsbD b = decide (b < 32) := by
  revert b; decide
theorem mask16_bit : (0x000000000000FFFF#64).getLsbD b = decide (b < 16) := by
  revert b; decide
theorem maskLow8_bit : (0x00000000000000FF#64).getLsbD b = decide (b < 8) := by
  revert b; decide
theorem maskHigh8_bit : (0x000000000000FF00#64).getLsbD b = (decide (8 ≤ b) && decide (b < 16)) := by
  revert b; decide

end masks

section read
variable (x f : Word)

theorem readMux_32 : readMux 1 x f = (lane32 x).setWidth 64 := by
  apply BitVec.eq_of_getLsbD_eq
  intro b hb
  rw [readMux, BitVec.getLsbD_and, mask32_bit hb, BitVec.getLsbD_setWidth, getLsbD_lane32]
  simp only [hb, decide_true, Bool.true_and, Bool.and_comm]

theorem readMux_16 : readMux 2 x f = (lane16 x).setWidth 64 := by
  apply BitVec.eq_of_getLsbD_eq
  intro b hb
  rw [readMux, BitVec.getLsbD_and, mask16_bit hb, BitVec.getLsbD_setWidth, getLsbD_lane16]
  simp only [hb, decide_true, Bool.true_and, Bool.and_comm]

theorem readMux_low8 : readMux 3 x f = (laneLow8 x).setWidth 64 := by
  apply BitVec.eq_of_getLsbD_eq
  intro b hb
  rw [readMux, BitVec.getLsbD_and, maskLow8_bit hb, BitVec.getLsbD_setWidth, getLsbD_laneLow8]
  simp only [hb, decide_true, Bool.true_and, Bool.and_comm]

theorem readMux_high8 : readMux 4 x f = (laneHigh8 x).setWidth 64 := by
  apply BitVec.eq_of_getLsbD_eq
  intro b hb
  rw [readMux, BitVec.getLsbD_and, maskLow8_bit hb, BitVec.getLsbD_setWidth, getLsbD_laneHigh8,
    BitVec.getLsbD_ushiftRight]
  simp only [hb, decide_true, Bool.true_and, Bool.and_comm]

end read

/-- What a set of width class `sel` leaves in a slot that held `x`. -/
def maskedWrite (sel : Nat) (x d : Word) : Word := (x &&& ~~~ writeMask sel) ||| (writeData sel d &&& writeMask sel)

/-- A masked write bit by bit. -/
theorem maskedWrite_bit (sel : Nat) (x d : Word) {b : Nat} (hb : b < 64) :
    (maskedWrite sel x d).getLsbD b =
      if (writeMask sel).getLsbD b then (writeData sel d).getLsbD b else x.getLsbD b := by
  simp only [maskedWrite, BitVec.getLsbD_or, BitVec.getLsbD_and, BitVec.getLsbD_not, hb, decide_true, Bool.true_and]
  cases (writeMask sel).getLsbD b <;> simp

section write
variable (x d : Word)

theorem maskedWrite_64 : maskedWrite 0 x d = put64 x d := by
  apply BitVec.eq_of_getLsbD_eq
  intro b hb
  have : (0xFFFFFFFFFFFFFFFF#64).getLsbD b = true := by revert b; decide
  rw [maskedWrite_bit 0 x d hb, writeMask, this]
  rfl

theorem maskedWrite_32 : maskedWrite 1 x d = put32 x (d.setWidth 32) := by
  apply BitVec.eq_of_getLsbD_eq
  intro b hb
  have : (0xFFFFFFFFFFFFFFFF#64).getLsbD b = true := by revert b; decide
  rw [maskedWrite_bit 1 x d hb, writeMask, this, writeData, BitVec.getLsbD_and, mask32_bit hb, getLsbD_put32,
    BitVec.getLsbD_setWidth]
  cases h : decide (b < 32) <;> simp

theorem maskedWrite_16 : maskedWrite 2 x d = put16 x (d.setWidth 16) := by
  apply BitVec.eq_of_getLsbD_eq
  intro b hb
  rw [maskedWrite_bit 2 x d hb, writeMask, mask16_bit hb, getLsbD_put16, BitVec.getLsbD_setWidth]
  by_cases h : b < 16 <;> simp [h, writeData]

theorem maskedWrite_low8 : maskedWrite 3 x d = putLow8 x (d.setWidth 8) := by
  apply BitVec.eq_of_getLsbD_eq
  intro b hb
  rw [maskedWrite_bit 3 x d hb, writeMask, maskLow8_bit hb, getLsbD_putLow8, BitVec.getLsbD_setWidth]
  by_cases h : b < 8 <;> simp [h, writeData]

theorem maskedWrite_high8 : maskedWrite 4 x d = putHigh8 x (d.setWidth 8) := by
  apply BitVec.eq_of_getLsbD_eq
  intro b hb
  rw [maskedWrite_bit 4 x d hb, writeMask, maskHigh8_bit hb, getLsbD_putHigh8, BitVec.getLsbD_setWidth, writeData,
    BitVec.getLsbD_shiftLeft]
  by_cases h : 8 ≤ b
  · by_cases h' : b < 16
    · have : ¬ b < 8 := by omega
      have : b - 8 < 8 := by omega
      simp [*]
    · simp [h, h']
  · simp [h]

/-- A width class that is no slot's writes nothing. -/
theorem maskedWrite_flags : maskedWrite 5 x d = x := by
  apply BitVec.eq_of_getLsbD_eq
  intro b hb
  simp [maskedWrite_bit 5 x d hb, writeMask]

end write

section command
variable (s : State) (op : BitVec 4) (idx sel : Nat) (d : Word)

/-- What the clocked register file does with a get: it drives the lane and keeps the state. -/
theorem rfPorts_get (h : op.getLsbD 0 = false) (hs : (op.extractLsb' 1 3).toNat = sel) :
    rfNextSlots ⟨false, true, op, idx, d⟩ s = s.slots ∧ rfNextFlags ⟨false, true, op, idx, d⟩ s = s.flags ∧
      rfRdata ⟨false, true, op, idx, d⟩ s = readMux sel (s.slot (widx idx)) s.flags := by
  have hg : (RfPorts.mk false true op idx d).isSet = false := h
  have hx : (RfPorts.mk false true op idx d).sel = sel := hs
  simp only [rfNextSlots, rfNextFlags, rfRdata, hg, hx]
  exact ⟨rfl, rfl, rfl⟩

/-- What the clocked register file does with a set: a masked write of the addressed slot, or of the flags, and 0 on
`rf_rdata`. -/
theorem rfPorts_set (h : op.getLsbD 0 = true) (hs : (op.extractLsb' 1 3).toNat = sel) :
    rfNextSlots ⟨false, true, op, idx, d⟩ s =
        s.slots.set (widx idx) (maskedWrite sel (s.slot (widx idx)) d) ∧
      rfNextFlags ⟨false, true, op, idx, d⟩ s = (if sel = 5 then d else s.flags) ∧
      rfRdata ⟨false, true, op, idx, d⟩ s = 0#64 := by
  have hg : (RfPorts.mk false true op idx d).isSet = true := h
  have hx : (RfPorts.mk false true op idx d).sel = sel := hs
  simp only [rfNextSlots, rfNextFlags, rfRdata, hg, hx]
  refine ⟨rfl, ?_, rfl⟩
  by_cases h5 : sel = 5 <;> simp [h5]

end command

end Sys2Proof.Machine
end

