-- ==== Sys2Proof/Machine/Assembly.lean ====
section
/-!
DEFINITION. The written forms of the spec: the assembler line of an operation (30_encoding.md R51) and the
`op:idx:data` listing of a packed command (R42). They have no effect on the machine. An index is written in decimal
and a value in upper-case hexadecimal at its width (log 20).
-/

namespace Sys2Proof

/-- The last `n` hexadecimal digits of `v`, most significant first. -/
def hexChars : Nat → Nat → List Char
  | 0, _ => []
  | n + 1, v => hexChars n (v / 16) ++ [(Nat.digitChar (v % 16)).toUpper]

/-- A value of `n` hexadecimal digits with its `0x`. -/
def hexLiteral (n v : Nat) : String := "0x" ++ String.ofList (hexChars n v)

/-- A byte slice as `0x48, 0x89`. -/
def sliceItems : List Byte → String
  | [] => ""
  | [b] => hexLiteral 2 b.toNat
  | b :: rest => hexLiteral 2 b.toNat ++ ", " ++ sliceItems rest

/-- The assembler line of an operation (R51). -/
def Instr.asm : Instr → String
  | .get64 i => "get64 " ++ Nat.repr i
  | .set64 i v => "set64 " ++ Nat.repr i ++ ", " ++ hexLiteral 16 v.toNat
  | .get32 i => "get32 " ++ Nat.repr i
  | .set32 i v => "set32 " ++ Nat.repr i ++ ", " ++ hexLiteral 8 v.toNat
  | .get16 i => "get16 " ++ Nat.repr i
  | .set16 i v => "set16 " ++ Nat.repr i ++ ", " ++ hexLiteral 4 v.toNat
  | .get8l i => "get8l " ++ Nat.repr i
  | .set8l i v => "set8l " ++ Nat.repr i ++ ", " ++ hexLiteral 2 v.toNat
  | .get8h i => "get8h " ++ Nat.repr i
  | .set8h i v => "set8h " ++ Nat.repr i ++ ", " ++ hexLiteral 2 v.toNat
  | .getf => "getf"
  | .setf v => "setf " ++ hexLiteral 16 v.toNat
  | .decodeExt b => "decode " ++ hexLiteral 2 b.toNat
  | .scan bytes => "scan [" ++ sliceItems bytes ++ "]"

/-- A slot's other spelling, `r0` to `r15` (R51). -/
def slotName (j : Fin 16) : String := "r" ++ Nat.repr j.val

/-- The listing of a packed command, `op:idx:data` in hexadecimal (R42, `IDX_W = 8`). -/
def commandListing (cmd : BitVec 76) : String :=
  String.ofList (hexChars 1 (cmd.extractLsb' 72 4).toNat) ++ ":" ++
    String.ofList (hexChars 2 (cmd.extractLsb' 64 8).toNat) ++ ":" ++
      String.ofList (hexChars 16 (cmd.extractLsb' 0 64).toNat)

end Sys2Proof
end

