-- ==== Sys2Proof/Tests/Slice0.lean ====
section
/-!
SUPPORT. Small tests, and a witness for the hypotheses of every statement that has some. Expected results are those of
95_test_vectors.md (the numbers V1 to V42, S1 to S8 and the programs P1 to P5 are its own) or written out from the encodings of
30_encoding.md; none was taken from the model.
-/

namespace Sys2Proof.Tests

open Sys2Proof.Machine

/-- The value `A` of 95_test_vectors.md. -/
def A : Word := 0x1122334455667788#64
/-- All ones, `F` of 95_test_vectors.md. -/
def F : Word := 0xFFFFFFFFFFFFFFFF#64

/-- The reset state with one slot filled. -/
def holding (j : Fin 16) (v : Word) : State := State.reset.setSlot j v

/-- The reset state with these inputs presented. -/
def presenting (inputs : List Input) : State := { State.reset with inputs := inputs }

/-- A slot after an outcome. -/
def slotAfter (o : Host.Outcome State Fault Refusal) (j : Fin 16) : Option Word :=
  match o with
  | .next t => some (t.slot j)
  | .fault _ => none
  | .refused _ => none

/-- The flags after an outcome. -/
def flagsOf (o : Host.Outcome State Fault Refusal) : Option Word :=
  match o with
  | .next t => some t.flags
  | .fault _ => none
  | .refused _ => none

/-- The answer after an outcome. -/
def answerOf (o : Host.Outcome State Fault Refusal) : Option Answer :=
  match o with
  | .next t => some t.answer
  | .fault _ => none
  | .refused _ => none

/-- What a packed command decodes to, `none` where it is refused. -/
def spelled (cmd : BitVec 76) : Option Instr :=
  match decodePacked 8 cmd with
  | .ok i => some i
  | .error _ => none

/-! ## WellFormed: an index that does not fit the field is refused, the largest that fits is not -/

theorem test_wf_refuses_index_256 : (Instr.get64 256).wellFormed = false := by decide
theorem test_wf_accepts_index_255 : (Instr.set8h 255 0x00#8).wellFormed = true := by decide
theorem test_wf_refuses_set_index : (Instr.set32 300 0x0#32).wellFormed = false := by decide

/-! ## Decoding: each word written out as `op`, `idx`, `data` from R41 and R42 -/

theorem test_decode_get64 : spelled 0x0090000000000000000#76 = some (.get64 9) := by decide
theorem test_decode_set64 : spelled 0x11F0123456789ABCDEF#76 = some (.set64 31 0x0123456789ABCDEF#64) := by decide
theorem test_decode_get32 : spelled 0x20F0000000000000000#76 = some (.get32 15) := by decide
theorem test_decode_set32_ignores_upper : spelled 0x312FFFFFFFF00C0FFEE#76 = some (.set32 18 0x00C0FFEE#32) := by decide
theorem test_decode_get16 : spelled 0x4020000000000000000#76 = some (.get16 2) := by decide
theorem test_decode_set16 : spelled 0x5020000000000001234#76 = some (.set16 2 0x1234#16) := by decide
theorem test_decode_get8l : spelled 0x6020000000000000000#76 = some (.get8l 2) := by decide
theorem test_decode_set8l : spelled 0x70200000000000000CD#76 = some (.set8l 2 0xCD#8) := by decide
theorem test_decode_get8h : spelled 0x8020000000000000000#76 = some (.get8h 2) := by decide
theorem test_decode_set8h_takes_low_byte : spelled 0x902000000000000CDAB#76 = some (.set8h 2 0xAB#8) := by decide
theorem test_decode_getf_ignores_fields : spelled 0xA05FFFFFFFFFFFFFFFF#76 = some .getf := by decide
theorem test_decode_setf : spelled 0xB05FFFFFFFFFFFFFFFF#76 = some (.setf 0xFFFFFFFFFFFFFFFF#64) := by decide
theorem test_decode_reserved_C : spelled 0xC000000000000000000#76 = none := by decide
theorem test_decode_reserved_F : spelled 0xF05FFFFFFFFFFFFFFFF#76 = none := by decide
theorem test_encode_set32 : encodePacked 8 (.set32 18 0x00C0FFEE#32) = some 0x3120000000000C0FFEE#76 := by decide
theorem test_table_word_command : decodeTableWord 80 0x1001122334455667788 = some (.set64 0 A) := by decide
theorem test_table_word_byte : decodeTableWord 8 0x48 = some (.decodeExt 0x48#8) := by decide
theorem test_table_word_slice : decodeTableWord 24 0xC8894C = some (.scan [0x4C#8, 0x89#8, 0xC8#8]) := by decide

/-! ## Meanings -/

/-- V3. -/
theorem test_get64_aliases : answerOf (exec (.get64 16) (holding 0 A)) = some (.word A) := by decide
/-- V4. -/
theorem test_set64_aliases : slotAfter (exec (.set64 31 0x0123456789ABCDEF#64) (holding 15 F)) 15 =
    some 0x0123456789ABCDEF#64 := by decide
/-- V11. -/
theorem test_set64_keeps_other_slot : slotAfter (exec (.set64 2 0#64) (holding 3 F)) 3 = some F := by decide
/-- V5. -/
theorem test_get32_drops_upper : answerOf (exec (.get32 3) (holding 3 0xFFFFFFFF00000001#64)) =
    some (.word32 0x00000001#32) := by decide
/-- V8. -/
theorem test_set32_clears_upper : slotAfter (exec (.set32 1 0x89ABCDEF#32) (holding 1 F)) 1 =
    some 0x0000000089ABCDEF#64 := by decide
/-- V12. -/
theorem test_get16 : answerOf (exec (.get16 0) (holding 0 A)) = some (.half 0x7788#16) := by decide
/-- V16. -/
theorem test_set16_keeps_upper : slotAfter (exec (.set16 1 0xBEEF#16) (holding 1 F)) 1 =
    some 0xFFFFFFFFFFFFBEEF#64 := by decide
/-- V29: an index beyond 64 bits. -/
theorem test_set16_index_beyond_64_bits : slotAfter (exec (.set16 (2 ^ 64 + 3) 0xFFFF#16) (holding 3 A)) 3 =
    some 0x112233445566FFFF#64 := by decide
/-- V13. -/
theorem test_get8l : answerOf (exec (.get8l 0) (holding 0 A)) = some (.byte 0x88#8) := by decide
/-- V18. -/
theorem test_set8l : slotAfter (exec (.set8l 1 0x5A#8) (holding 1 A)) 1 = some 0x112233445566775A#64 := by decide
/-- V26: the high byte of an extended slot. -/
theorem test_get8h_slot9 : answerOf (exec (.get8h 9) (holding 9 A)) = some (.byte 0x77#8) := by decide
/-- V14: the byte on the port, unshifted. -/
theorem test_get8h_port : Answer.rfRdata (.byte 0x77#8) = 0x0000000000000077#64 := by decide
/-- V21. -/
theorem test_set8h : slotAfter (exec (.set8h 1 0xAB#8) (holding 1 A)) 1 = some 0x112233445566AB88#64 := by decide
/-- V27. -/
theorem test_set8h_aliases : slotAfter (exec (.set8h 20 0x00#8) (holding 4 A)) 4 = some 0x1122334455660088#64 := by decide
/-- V30. -/
theorem test_getf_reset : answerOf (exec .getf State.reset) = some (.word 0#64) := by decide
/-- V31: no bit forced or masked. -/
theorem test_setf_all_ones : flagsOf (exec (.setf F) State.reset) = some F := by decide
/-- S6a. -/
theorem test_decode_48 : answerOf (exec (.decodeExt 0x48#8) State.reset) =
    some (.ext (some ⟨true, false, false, false⟩)) := by decide
/-- Section 2.4: each of R, X and B alone, a present extension without bits, and the neighbours of the range. -/
theorem test_extension_bits :
    extensionOf 0x44#8 = some ⟨false, true, false, false⟩ ∧ extensionOf 0x42#8 = some ⟨false, false, true, false⟩ ∧
    extensionOf 0x41#8 = some ⟨false, false, false, true⟩ ∧ extensionOf 0x40#8 = some ⟨false, false, false, false⟩ ∧
    extensionOf 0x3F#8 = none ∧ extensionOf 0x50#8 = none ∧ extensionOf 0x0F#8 = none ∧ extensionOf 0xC4#8 = none := by
  decide
/-- V37: a second extension byte is not consumed. -/
theorem test_scan_two_extensions : answerOf (exec (.scan [0x4F#8, 0x48#8]) State.reset) =
    some (.scan ⟨some ⟨true, true, true, true⟩, 1⟩) := by decide
/-- V38: an extension after a legacy byte is not seen. -/
theorem test_scan_legacy_hides : answerOf (exec (.scan [0x66#8, 0x48#8]) State.reset) =
    some (.scan ⟨none, 0⟩) := by decide

/-! ## Steps and written forms -/

/-- V41: a reserved code is refused. -/
theorem test_step_refuses_C :
    step (presenting [Input.present (unpackCommand 8 0xC000000000000000000#76)]) =
      .refused (.reservedOperation 0xC#4) := rfl
/-- R81: the operation presented in a reset step has no effect, a reserved one neither. -/
theorem test_step_reset_clears :
    slotAfter (step { holding 5 F with inputs := [⟨true, some (.rf 0xC#4 5 F)⟩] }) 5 = some 0#64 := by decide
theorem test_step_runs_table_word :
    slotAfter (step (State.reset.withFetchWord 80 0x1001122334455667788)) 0 = some A := by decide
/-- P2, step 6. -/
theorem test_asm_set32 : (Instr.set32 18 0x00C0FFEE#32).asm = "set32 18, 0x00C0FFEE" := by decide
theorem test_asm_scan : (Instr.scan [0x48#8, 0x89#8, 0xC8#8]).asm = "scan [0x48, 0x89, 0xC8]" := by decide
/-- P2, step 6: the listing of the command. -/
theorem test_listing : commandListing 0x3120000000000C0FFEE#76 = "3:12:0000000000C0FFEE" := by decide
/-- S8: register 1 is a copy. -/
theorem test_mov64 : slotAfter (mov64 1 0 (holding 0 A)) 1 = some A := by decide

/-! ## Witnesses: for each statement with hypotheses, a state and operands that meet them -/

theorem witness_index_names_slot : 35 % 16 = (3 : Fin 16).val ∧ 15 % 16 = (15 : Fin 16).val ∧ 16 % 16 = (0 : Fin 16).val := by
  decide
/-- Set64ReplacesTheSlot and ReadAfterWriteReturnsTheValue. -/
theorem witness_aliasing_indices : 16 % 16 = 0 % 16 ∧ 15 % 16 = 31 % 16 := by decide
/-- OnlySetfWritesAndOnlyGetfReadsFlags. -/
theorem witness_flags_change : ∃ t, exec (.setf 1#64) State.reset = .next t ∧ t.flags ≠ State.reset.flags ∧
    (Instr.get64 0) ≠ .getf := ⟨_, rfl, by decide, by decide⟩
/-- DecodeExtFollowsTheRexLayout and ExtensionPortsAgreeWithOperations: both ends of the range. -/
theorem witness_extension_present : extensionOf 0x40#8 = some ⟨false, false, false, false⟩ ∧
    extensionOf 0x4F#8 = some ⟨true, true, true, true⟩ ∧ (scanOf [0x48#8]).ext = some ⟨true, false, false, false⟩ := by decide
/-- ScanNeverInspectsBeyondTheFirstByte. -/
theorem witness_same_head : [0x48#8].head? = [0x48#8, 0x4F#8].head? ∧ ([] : List Byte).head? = [].head? := by decide
/-- ByteOutsideTheRangeIsNoError. -/
theorem witness_outside_range : (0x3F#8).toNat / 16 ≠ 4 ∧ (0x50#8).toNat / 16 ≠ 4 := by decide
/-- RecognizedExtensionAltersNoAccessor. -/
theorem witness_recognized : ∃ t u, exec (.decodeExt 0x48#8) (holding 0 A) = .next t ∧
    exec (.scan [0x48#8]) (holding 0 A) = .next u := ⟨_, _, rfl, rfl⟩
/-- IndexWrapsModulo16. -/
theorem witness_index_width : 4 ≤ 4 ∧ 4 ≤ 8 ∧ (0x1F#8).toNat % 16 = 15 := by decide
/-- OperationsNeverFail, the third clause. -/
theorem witness_refused_step : ∃ s r, step s = .refused r :=
  ⟨presenting [Input.present (.rf 0xF#4 0 0#64)], _, rfl⟩
/-- ReservedCodesAreRefused: the first and the last code. -/
theorem witness_reserved : 12 ≤ (0xC#4).toNat ∧ 12 ≤ (0xF#4).toNat ∧
    (presenting [Input.present (.rf 0xC#4 0 0#64)]).inputs = Input.present (.rf 0xC#4 0 0#64) :: [] := by decide
/-- OnlyTheAddressedSlotChanges, both clauses, and OperationsAreIdempotent. -/
theorem witness_slot_changes : (∃ t, exec (.set8h 20 0x00#8) (holding 4 A) = .next t ∧ t.slot 4 ≠ (holding 4 A).slot 4) ∧
    setIndex (.setf 0#64) = none ∧ ∃ t, exec (.setf 0#64) (holding 4 A) = .next t := ⟨⟨_, rfl, by decide⟩, rfl, _, rfl⟩
/-- GetReturnsWhatTheLastWritesLeft. -/
theorem witness_read_lane : readLane (.get8h 47) = some (47, 8, 8) ∧ 47 % 16 = (15 : Fin 16).val := by decide
/-- DisjointSetsCommute, the second clause. -/
theorem witness_different_slots : setIndex (.set16 15 0#16) = some 15 ∧ setIndex (.set32 16 0#32) = some 16 ∧
    15 % 16 ≠ 16 % 16 := by decide
/-- Mov64CopiesOneSlot: different slots, and one slot under two indices. -/
theorem witness_mov64 : 1 % 16 = (1 : Fin 16).val ∧ 16 % 16 = (0 : Fin 16).val ∧ 0 % 16 = (0 : Fin 16).val := by decide
/-- PackedCommandRoundTrip, at the default width and at the least. -/
theorem witness_packed : (∀ b, Instr.set8h 255 0xAB#8 ≠ .decodeExt b) ∧ (∀ l, Instr.set8h 255 0xAB#8 ≠ .scan l) ∧
    (Instr.set8h 255 0xAB#8).fits 8 = true ∧ (Instr.set8h 15 0xAB#8).fits 4 = true :=
  ⟨nofun, nofun, by decide, by decide⟩
/-- DecodingDropsNoUsedBit, with ignored bits set. -/
theorem witness_decodes : decodePacked 8 0x312FFFFFFFF00C0FFEE#76 = .ok (.set32 18 0x00C0FFEE#32) ∧
    (Instr.set32 18 0x00C0FFEE#32).index? ≠ none := ⟨rfl, by decide⟩
/-- StepRunsTheDecodedOperation. -/
theorem witness_step_decodes : decode (.rf 0x1#4 0 A) = .ok (.set64 0 A) ∧
    (presenting [Input.present (.rf 0x1#4 0 A)]).inputs = Input.present (.rf 0x1#4 0 A) :: [] := ⟨rfl, rfl⟩
/-- PresentedWordRunsNext: a command, a byte and a slice. -/
theorem witness_table_words : decodeTableWord 80 0x1001122334455667788 = some (.set64 0 A) ∧
    decodeTableWord 8 0x40 = some (.decodeExt 0x40#8) ∧ decodeTableWord 16 0x8940 = some (.scan [0x40#8, 0x89#8]) := by
  decide
/-- ResetStepClearsCore, and the third clause of ClockedRegisterFileRefinesTheStep. -/
theorem witness_reset_step : (presenting [⟨true, some (.rf 0x1#4 0 A)⟩]).inputs = ⟨true, some (.rf 0x1#4 0 A)⟩ :: [] ∧
    (RfPorts.mk true true 0x1#4 0 A).rst = true := ⟨rfl, rfl⟩
/-- QuietStepChangesNothing, both forms, and the second clause of ClockedRegisterFileRefinesTheStep. -/
theorem witness_quiet : State.reset.inputs = [] ∧ (presenting [Input.quiet]).inputs = Input.quiet :: [] := ⟨rfl, rfl⟩
/-- StreamRunsInIssueOrder. -/
theorem witness_stream : (presenting [Input.present (.rf 0x1#4 0 A), Input.present (.rf 0x0#4 0 0#64)]).inputs =
    [Instr.set64 0 A, Instr.get64 0].map (fun i => Input.present (encode i)) ++ [] := rfl
/-- AdmittedRunsNeverStop and StepKeepsTheInvariant: with an operation, and with a reserved code in a reset step. -/
theorem witness_invariant : State.Inv (presenting [Input.present (.rf 0xB#4 0 A), ⟨true, some (.rf 0xC#4 0 A)⟩]) := by
  refine ⟨?_, trivial⟩
  intro inp hmem hrst r hr
  simp only [presenting, List.mem_cons, List.not_mem_nil, or_false] at hmem
  rcases hmem with rfl | rfl
  · cases hr; decide
  · cases hrst
/-- ClockedRegisterFileRefinesTheStep, the first clause: the largest code that is not reserved. -/
theorem witness_clocked : (0xB#4).toNat < 12 ∧
    (presenting [Input.present (.rf 0xB#4 0 A)]).inputs = Input.present (.rf 0xB#4 0 A) :: [] := by decide

end Sys2Proof.Tests
end

/-! ## Family 10_state: reset, the flags container, DECODE_EXT and SCAN, the wrapped index -/

namespace Sys2Proof.Machine

/-! ### Facts about the state and the operations -/

section state
variable (s : State) (i k : Nat)

/-- The wrapped index has period 16 (R18). -/
@[simp] theorem widx_add_mul_16 : widx (i + 16 * k) = widx i :=
  (widx_eq_iff _ _).mpr (Nat.add_mul_mod_self_left i 16 k)

/-- A get reaches its slot through the wrapped index alone. -/
@[simp] theorem State.get_add_mul_16 (read : Word → Answer) : s.get (i + 16 * k) read = s.get i read := by
  simp only [State.get, widx_add_mul_16]

/-- A set reaches its slot through the wrapped index alone. -/
@[simp] theorem State.put_add_mul_16 (write : Word → Word) : s.put (i + 16 * k) write = s.put i write := by
  simp only [State.put, widx_add_mul_16]

end state

/-- Every operation completes (R71). -/
theorem exec_completes (i : Instr) (s : State) : ∃ t, exec i s = .next t := by
  obtain ⟨_, _, _, _, h⟩ | ⟨_, _, _, _, h⟩ | ⟨_, h⟩ | ⟨_, _, h⟩ | ⟨_, _, h⟩ | ⟨_, _, h⟩ := exec_cases i s <;>
    exact ⟨_, h⟩

/-- The only operation that writes the flags container is SETF, and it writes its operand. -/
theorem writtenFlags_eq_some {i : Instr} {v : Word} (h : writtenFlags i = some v) : i = .setf v := by
  cases i with
  | setf w => exact congrArg Instr.setf (Option.some.inj h)
  | _ => cases h

/-- An operation other than GETF does not depend on the flags container: run with other flags, it ends in the same
state but for the flags, which are those it writes or else those it was given. -/
theorem exec_with_flags {i : Instr} {s t : State} (hi : i ≠ .getf) (h : exec i s = .next t) (f : Word) :
    exec i { s with flags := f } = .next { t with flags := (writtenFlags i).getD f } := by
  cases i with
  | getf => exact absurd rfl hi
  | _ => cases h; rfl

/-! ### The obligations -/

/-- Settles O15: the flags after an operation are those `writtenFlags` names, and no operation but GETF depends on
the flags it is given. -/
theorem onlySetfWritesAndOnlyGetfReadsFlags : Obligations.OnlySetfWritesAndOnlyGetfReadsFlags := by
  refine ⟨fun i s t h hne => ?_, fun v s => ⟨s.putFlags v, rfl, rfl⟩, fun i s f hi => ?_⟩
  · have hf : t.flags = (writtenFlags i).getD s.flags := exec_flags h
    cases hw : writtenFlags i with
    | none => exact absurd (by rw [hf, hw, Option.getD_none]) hne
    | some v => exact ⟨v, writtenFlags_eq_some hw⟩
  · obtain ⟨t, ht⟩ := exec_completes i s
    exact ⟨t, _, ht, exec_with_flags hi ht f, rfl, rfl⟩

/-- Settles O1. -/
theorem resetClearsSlotsAndFlags : Obligations.ResetClearsSlotsAndFlags :=
  ⟨State.reset_slot, rfl⟩

/-- Settles O21: the two functions are `extensionOf` and `scanOf`, which take no state. -/
theorem prefixUnitsHoldNoState : Obligations.PrefixUnitsHoldNoState :=
  ⟨extensionOf, scanOf, fun _ _ _ => ⟨rfl, rfl⟩⟩

/-- Settles O24: every sized accessor is one `State.get` or `State.put`, and both wrap their index. -/
theorem indexWrapsModulo16 : Obligations.IndexWrapsModulo16 := by
  refine ⟨fun i k s => ?_, fun W x _ => ?_⟩
  · have hget (read : Word → Answer) : (.next (s.get (i + 16 * k) read) : Host.Outcome State Fault Refusal) =
        .next (s.get i read) := by rw [State.get_add_mul_16]
    have hput (write : Word → Word) : (.next (s.put (i + 16 * k) write) : Host.Outcome State Fault Refusal) =
        .next (s.put i write) := by rw [State.put_add_mul_16]
    exact ⟨hget _, hget _, hget _, hget _, hget _,
      fun _ => hput _, fun _ => hput _, fun _ => hput _, fun _ => hput _, fun _ => hput _⟩
  · rw [BitVec.extractLsb'_toNat, Nat.shiftRight_zero]

end Sys2Proof.Machine

/-! ## Family 20_memory: runs of operations, the lane a get drives, the head of a slice -/

namespace Sys2Proof.Machine

/-! ### Runs of operations -/

section run
variable {s t : State} {ops : List Instr}

/-- A run of operations begins with the meaning of the first. -/
theorem runOps_cons {i : Instr} (h : exec i s = .next t) : runOps (i :: ops) s = runOps ops t := by
  simp only [runOps, h]

/-- Every run of operations completes, since every operation does (R71). -/
theorem runOps_completes (ops : List Instr) (s : State) : ∃ t, runOps ops s = .next t := by
  induction ops generalizing s with
  | nil => exact ⟨s, rfl⟩
  | cons i rest ih =>
    obtain ⟨s', hi⟩ := exec_completes i s
    obtain ⟨t, ht⟩ := ih s'
    exact ⟨t, (runOps_cons hi).trans ht⟩

/-- Every bit of every slot after a run is what the last operation that writes it wrote, and otherwise what it
held (R34). -/
theorem runOps_slot_bit (h : runOps ops s = .next t) (j : Fin 16) (b : Nat) :
    (t.slot j).getLsbD b = bitAfter j b ops ((s.slot j).getLsbD b) := by
  induction ops generalizing s with
  | nil => cases h; rfl
  | cons i rest ih =>
    obtain ⟨s', hi⟩ := exec_completes i s
    rw [runOps_cons hi] at h
    rw [ih h, exec_slot_bit hi j b]
    rfl

/-- The flags container after a run is the operand of the last SETF, and otherwise what it was (R20, R34). -/
theorem runOps_flags (h : runOps ops s = .next t) : t.flags = flagsAfter ops s.flags := by
  induction ops generalizing s with
  | nil => cases h; rfl
  | cons i rest ih =>
    obtain ⟨s', hi⟩ := exec_completes i s
    rw [runOps_cons hi] at h
    rw [ih h, exec_flags hi]
    rfl

end run

/-! ### The lane a get drives -/

/-- Zero-extending a result of at most 64 bits to the port adds no bit (R44). -/
theorem getLsbD_setWidth_port {w : Nat} (hw : w ≤ 64) (r : BitVec w) (b : Nat) :
    (r.setWidth 64).getLsbD b = r.getLsbD b := by
  have hlt (hb : r.getLsbD b = true) : b < 64 := (BitVec.lt_of_getLsbD hb).trans_le hw
  simpa using hlt

/-- A word has no bit above bit 63, so its lane of 64 bits is the whole word (R30). -/
theorem decide_lt_and_getLsbD_word (x : Word) (b : Nat) : (decide (b < 64) && x.getLsbD b) = x.getLsbD b := by
  simpa using BitVec.lt_of_getLsbD

/-- A sized get drives the lane that `readLane` names of its slot, zero-extended, on `rf_rdata` (R30, R44). -/
theorem exec_rfRdata_of_readLane {i : Instr} {n lo w : Nat} {s t : State} (hl : readLane i = some (n, lo, w))
    (h : exec i s = .next t) (b : Nat) :
    t.rfRdata.getLsbD b = (decide (b < w) && (s.slot (widx n)).getLsbD (lo + b)) := by
  cases i with
  | get64 _ =>
    cases hl; cases h
    rw [Nat.zero_add, decide_lt_and_getLsbD_word]
    rfl
  | get32 _ =>
    cases hl; cases h
    rw [Nat.zero_add, ← getLsbD_lane32]
    exact getLsbD_setWidth_port (by decide) _ b
  | get16 _ =>
    cases hl; cases h
    rw [Nat.zero_add, ← getLsbD_lane16]
    exact getLsbD_setWidth_port (by decide) _ b
  | get8l _ =>
    cases hl; cases h
    rw [Nat.zero_add, ← getLsbD_laneLow8]
    exact getLsbD_setWidth_port (by decide) _ b
  | get8h _ =>
    cases hl; cases h
    rw [← getLsbD_laneHigh8]
    exact getLsbD_setWidth_port (by decide) _ b
  | _ => cases hl

/-! ### The head of a slice -/

/-- The scan of a slice depends on the head of the slice alone (R29). -/
theorem scanOf_eq_of_head? {bytes bytes' : List Byte} (h : bytes.head? = bytes'.head?) :
    scanOf bytes = scanOf bytes' := by
  cases bytes with
  | nil =>
    cases bytes' with
    | nil => rfl
    | cons b' rest' => cases h
  | cons b rest =>
    cases bytes' with
    | nil => cases h
    | cons b' rest' => cases h; rfl

/-! ### The obligations -/

/-- Settles O28: the bits and the flags are those the last writes left, by induction on the operations, and a get
from there drives its lane of those bits. -/
theorem getReturnsWhatTheLastWritesLeft : Obligations.GetReturnsWhatTheLastWritesLeft := by
  refine ⟨fun ops s => ?_, fun ops => ?_⟩
  · obtain ⟨t, ht⟩ := runOps_completes ops s
    refine ⟨t, ht, runOps_slot_bit ht, runOps_flags ht, fun i n lo w j hl hj => ?_, t.getFlags, rfl, runOps_flags ht⟩
    obtain ⟨u, hu⟩ := exec_completes i t
    refine ⟨u, hu, fun b => ?_⟩
    rw [exec_rfRdata_of_readLane hl hu b, widx_eq_of_mod hj, runOps_slot_bit ht j (lo + b)]
  · obtain ⟨t, ht⟩ := runOps_completes ops State.reset
    refine ⟨t, ht, fun j b => ?_, runOps_flags ht⟩
    rw [runOps_slot_bit ht j b, State.reset_slot, BitVec.getLsbD_zero]

/-- Settles O20: SCAN answers `scanOf`, which depends on the head of the slice alone. -/
theorem scanNeverInspectsBeyondTheFirstByte : Obligations.ScanNeverInspectsBeyondTheFirstByte := by
  refine ⟨fun bytes s => ⟨scanOf bytes, rfl⟩, fun bytes bytes' s h => ?_⟩
  exact congrArg (fun r => Host.Outcome.next (s.answerWith (.scan r))) (scanOf_eq_of_head? h)

end Sys2Proof.Machine

/-! ## Family 30_encoding: the bytes DECODE_EXT recognizes -/

namespace Sys2Proof.Machine

/-- The upper four bits of a byte are the tag `0100` exactly when its sixteenth is 4 (R47). -/
theorem upperNibble_eq_extensionTag_iff (b : Byte) :
    b.extractLsb' 4 4 = Config.extensionTag ↔ b.toNat / 16 = 4 := by
  have hlt : b.toNat / 16 < 16 := Nat.div_lt_of_lt_mul b.isLt
  have hnibble : (b.extractLsb' 4 4).toNat = b.toNat / 16 := by
    rw [BitVec.extractLsb'_toNat, Nat.shiftRight_eq_div_pow]
    exact Nat.mod_eq_of_lt hlt
  rw [← BitVec.toNat_inj, hnibble]
  rfl

/-- The recognized bytes are those whose upper four bits are `0100` (R47). -/
theorem extensionOf_ne_none_iff (b : Byte) : extensionOf b ≠ none ↔ b.toNat / 16 = 4 := by
  rw [← upperNibble_eq_extensionTag_iff, extensionOf]
  split
  case isTrue h => exact iff_of_true (Option.some_ne_none _) h
  case isFalse h => exact iff_of_false (fun hne => hne rfl) h

/-- The recognized bytes are the 16 values from `0x40` to `0x4F` (R46, R47). -/
theorem extensionOf_ne_none_iff_range (b : Byte) :
    extensionOf b ≠ none ↔ 0x40 ≤ b.toNat ∧ b.toNat ≤ 0x40 + 15 := by
  rw [extensionOf_ne_none_iff]
  omega

/-- Settles O16: the function is `extensionOf` and its range starts at `0x40`. -/
theorem decodeExtMeetsTheSourcesConstraints : Obligations.DecodeExtMeetsTheSourcesConstraints :=
  ⟨extensionOf, 0x40, fun _ _ => rfl, by decide, by decide, extensionOf_ne_none_iff_range,
    by decide, by decide, by decide⟩

end Sys2Proof.Machine

/-! ## Family 40_register_file: what each accessor answers, writes and leaves unchanged -/

namespace Sys2Proof.Machine

/-! ### The shared get and set through `i mod 16` -/

section accessors
variable {s : State} {i i' : Nat} {read : Word → Answer} {write : Word → Word}

/-- A sized get answers what its lane reads of the slot `i mod 16`, and its outcome differs from the state before it in
nothing else (R18, R33). -/
theorem next_get {j : Fin 16} (h : i % 16 = j.val) :
    (.next (s.get i read) : Host.Outcome State Fault Refusal) = .next { s with answer := read (s.slot j) } := by
  rw [State.get, widx_eq_of_mod h]
  rfl

/-- A set writes the slot `i mod 16` and no other (R18, R33). -/
theorem State.put_slot_mod (k : Fin 16) :
    (s.put i write).slot k = if k.val = i % 16 then write (s.slot k) else s.slot k := by
  rw [State.put_slot]
  exact if_congr (Fin.ext_iff.trans eq_comm) rfl rfl

/-- A get of any index of the slot just set answers from what the set left there (R18). -/
theorem State.put_get_of_mod (h : i' % 16 = i % 16) :
    (s.put i write).get i' read = (s.put i write).answerWith (read (write (s.slot (widx i)))) := by
  rw [State.get, (widx_eq_iff i' i).mpr h, State.put_slot, if_pos rfl]

/-- A set of a lane replaces the lane's bits in the slot `i mod 16` and keeps every other bit of every slot (R30). The
lane is given at bit `b`: whether `b` belongs to it (`P`), and the value's bit there (`new`). -/
theorem State.put_slot_bit {b : Nat} {P : Prop} [Decidable P] {new : Bool}
    (hw : ∀ x, (write x).getLsbD b = if P then new else x.getLsbD b) (k : Fin 16) :
    ((s.put i write).slot k).getLsbD b = if k.val = i % 16 ∧ P then new else (s.slot k).getLsbD b := by
  rw [State.put_slot_mod]
  by_cases hk : k.val = i % 16
  · simp only [hk, if_true, true_and, hw]
  · simp only [hk, if_false, false_and]

end accessors

/-! ### The lanes as whole values -/

/-- SET32's contents are the zero-extended value, whatever the slot held (R56). -/
theorem put32_eq_setWidth (x : Word) (v : Word32) : put32 x v = v.setWidth 64 :=
  (BitVec.setWidth_eq_append (by decide)).symm

/-- The low byte and then the high byte of a slot make up its bits 15:0 (R30, R62). -/
theorem extractLsb'_putHigh8_putLow8 (x : Word) (lo hi : Byte) :
    (putHigh8 (putLow8 x lo) hi).extractLsb' 0 16 = hi ++ lo := by
  apply BitVec.eq_of_getLsbD_eq
  intro k hk
  rw [BitVec.getLsbD_extractLsb', Nat.zero_add, getLsbD_putHigh8, getLsbD_putLow8, BitVec.getLsbD_append]
  by_cases h : k < 8
  · simp [h, hk, Nat.not_le.mpr h]
  · simp [h, hk, Nat.le_of_not_lt h]

/-- A byte on the port stands in bits 7:0 (R44). -/
theorem extractLsb'_low_byteOnPort (r : Byte) : (r.setWidth 64).extractLsb' 0 8 = r :=
  (BitVec.extractLsb'_setWidth_of_le (by decide)).trans BitVec.extractLsb'_eq_self

/-- A byte on the port leaves bits 63:8 zero (R44). -/
theorem extractLsb'_high_byteOnPort (r : Byte) : (r.setWidth 64).extractLsb' 8 56 = 0#56 := by
  rw [BitVec.setWidth_eq_append (by decide)]
  exact (BitVec.extractLsb'_append_eq_of_le (by decide)).trans BitVec.extractLsb'_eq_self

/-- SET64 and SETF take the whole of `rf_wdata` (R43). -/
theorem operandValue_64 (wdata : Word) : operandValue 64 wdata = wdata :=
  operandValue_setWidth (n := 64) le_rfl wdata

/-! ### The obligations: the sets that keep or clear a part of the slot -/

/-- Settles O6: the set's contents are the zero-extended value, which does not depend on what the slot held. -/
theorem set32ZeroExtends : Obligations.Set32ZeroExtends := by
  refine ⟨fun i d => ?_, fun s i v => ⟨_, rfl, rfl, rfl, rfl, fun k => ?_⟩⟩
  · exact congrArg (fun v => Except.ok (Instr.set32 i v)) (operandValue_eq_setWidth 32 d)
  · rw [State.put_slot_mod, put32_eq_setWidth]

/-- Settles O8: the lane is bits 15:0. -/
theorem set16PreservesBits63To16 : Obligations.Set16PreservesBits63To16 := by
  refine ⟨fun i d => ?_, fun s i v => ⟨_, rfl, rfl, rfl, rfl, fun k b => ?_⟩⟩
  · exact congrArg (fun v => Except.ok (Instr.set16 i v)) (operandValue_eq_setWidth 16 d)
  · exact State.put_slot_bit (fun x => getLsbD_put16 x b v) k

/-- Settles O10: the lane is bits 7:0. -/
theorem set8lPreservesBits63To8 : Obligations.Set8lPreservesBits63To8 := by
  refine ⟨fun i d => ?_, fun s i v => ⟨_, rfl, rfl, rfl, rfl, fun k b => ?_⟩⟩
  · exact congrArg (fun v => Except.ok (Instr.set8l i v)) (operandValue_eq_setWidth 8 d)
  · exact State.put_slot_bit (fun x => getLsbD_putLow8 x b v) k

/-- Settles O12: the lane is bits 15:8, and a low byte and then a high byte make up bits 15:0. -/
theorem set8hPreservesAllOtherBits : Obligations.Set8hPreservesAllOtherBits := by
  refine ⟨fun i d => ?_, fun s i v => ⟨_, rfl, rfl, rfl, rfl, fun k b => ?_⟩, fun s j a b => ⟨_, _, rfl, rfl, ?_⟩⟩
  · exact congrArg (fun v => Except.ok (Instr.set8h i v)) (operandValue_eq_setWidth 8 d)
  · exact State.put_slot_bit (fun x => getLsbD_putHigh8 x b v) k
  · have hj : j.val = j.val % 16 := (Nat.mod_eq_of_lt j.isLt).symm
    rw [State.put_slot_mod, if_pos hj, State.put_slot_mod, if_pos hj, extractLsb'_putHigh8_putLow8]

/-! ### The obligations: SET64 and the gets -/

/-- Settles O3: the lane is the whole slot, and every slot of the reset state is 0. -/
theorem get64ReturnsTheSlot : Obligations.Get64ReturnsTheSlot := by
  refine ⟨fun _ _ => rfl, fun s i j h => next_get h, fun i => ?_⟩
  have h : exec (.get64 i) State.reset = .next { State.reset with answer := .word (State.reset.slot (widx i)) } := rfl
  rwa [State.reset_slot] at h

/-- Settles O4: the set's contents are the value itself, and a get of the same slot reads them back. -/
theorem set64ReplacesTheSlot : Obligations.Set64ReplacesTheSlot := by
  refine ⟨fun i d => ?_, fun s i v => ⟨_, rfl, rfl, rfl, rfl, fun k => ?_, fun i' h => ?_⟩⟩
  · exact congrArg (fun v => Except.ok (Instr.set64 i v)) (operandValue_64 d)
  · exact State.put_slot_mod k
  · exact congrArg _ (State.put_get_of_mod h)

/-- Settles O5: the result is `lane32` of the slot, bit by bit. -/
theorem get32ReturnsBits31To0 : Obligations.Get32ReturnsBits31To0 := by
  refine ⟨fun _ _ => rfl, fun s i j h => ⟨lane32 (s.slot j), _, next_get h, rfl, fun b hb => ?_, rfl⟩⟩
  rw [getLsbD_lane32, decide_eq_true hb, Bool.true_and]

/-- Settles O7: the result is `lane16` of the slot, bit by bit. -/
theorem get16ReturnsBits15To0 : Obligations.Get16ReturnsBits15To0 := by
  refine ⟨fun _ _ => rfl, fun s i j h => ⟨lane16 (s.slot j), _, next_get h, rfl, fun b hb => ?_, rfl⟩⟩
  rw [getLsbD_lane16, decide_eq_true hb, Bool.true_and]

/-- Settles O9: the result is `laneLow8` of the slot, bit by bit. -/
theorem get8lReturnsBits7To0 : Obligations.Get8lReturnsBits7To0 := by
  refine ⟨fun _ _ => rfl, fun s i j h => ⟨laneLow8 (s.slot j), _, next_get h, rfl, fun b hb => ?_, rfl⟩⟩
  rw [getLsbD_laneLow8, decide_eq_true hb, Bool.true_and]

/-- Settles O11: the byte read is the lane itself, and the port zero-extends it. -/
theorem get8hReturnsBits15To8 : Obligations.Get8hReturnsBits15To8 := by
  refine ⟨fun _ _ => rfl, fun s i j h => ⟨laneHigh8 (s.slot j), _, next_get h, rfl, fun b hb => ?_,
    extractLsb'_low_byteOnPort _, extractLsb'_high_byteOnPort _⟩⟩
  rw [getLsbD_laneHigh8, decide_eq_true hb, Bool.true_and]

/-! ### The obligations: the flags container -/

/-- Settles O13: GETF is `State.getFlags`, and the reset value of the flags is 0. -/
theorem getfReturnsTheFlags : Obligations.GetfReturnsTheFlags :=
  ⟨fun _ _ => rfl, fun _ => rfl, rfl⟩

/-- Settles O14: SETF is `State.putFlags` of the whole of `rf_wdata`. -/
theorem setfReplacesTheFlags : Obligations.SetfReplacesTheFlags := by
  refine ⟨fun i d => ?_, fun s v => ⟨s.putFlags v, rfl, rfl, fun k => State.putFlags_slot s v k, rfl, rfl, rfl⟩⟩
  exact congrArg (fun v => Except.ok (Instr.setf v)) (operandValue_64 d)

end Sys2Proof.Machine

/-! ## Family 60_exceptions: what an answer can influence, and how a step is refused -/

namespace Sys2Proof.Machine

/-! ### The answer on the ports -/

/-- Every operation records an answer of its own and reads none, so what was answered before has no influence on it. -/
theorem exec_answerWith (i : Instr) (s : State) (a : Answer) : exec i (s.answerWith a) = exec i s := by
  cases i <;> rfl

/-- DECODE_EXT and SCAN change the answer alone (R24). -/
theorem answerWith_of_exec_recognizer {p : Instr} {s t : State}
    (hp : (∃ b, p = .decodeExt b) ∨ (∃ bytes, p = .scan bytes)) (h : exec p s = .next t) : ∃ a, t = s.answerWith a := by
  obtain ⟨b, rfl⟩ | ⟨bytes, rfl⟩ := hp <;> cases h <;> exact ⟨_, rfl⟩

/-! ### A refused step -/

/-- A command that spells no operation has one of the codes `0xC` to `0xF` (R45). -/
theorem le_toNat_of_decodeCommand_error {op : BitVec 4} {idx : Nat} {wdata : Word} {e : DecodeError}
    (h : decodeCommand op idx wdata = .error e) : 12 ≤ op.toNat := by
  unfold decodeCommand at h
  split at h
  -- the code is none of the twelve that the table R41 names
  case h_13 => simp only [imp_false] at *; omega
  all_goals cases h

/-- A request that spells no operation is a command with a reserved code: every byte and every slice is accepted
(R45, R48, R73). -/
theorem reserved_of_decode_error {r : Request} {e : DecodeError} (h : decode r = .error e) :
    ∃ op idx wdata, r = .rf op idx wdata ∧ 12 ≤ op.toNat := by
  cases r with
  | rf op idx wdata => exact ⟨op, idx, wdata, rfl, le_toNat_of_decodeCommand_error h⟩
  | dx b => cases h
  | pr bytes => cases h

/-- A step in which a request is presented runs the operation the request decodes to, with that input taken. -/
theorem step_present {s : State} {r : Request} {rest : List Input} {i : Instr}
    (h : s.inputs = Input.present r :: rest) (hd : decode r = .ok i) : step s = exec i { s with inputs := rest } := by
  simp [step, State.takeInput_cons h, Input.present, hd]

/-- A step is refused only outside reset, and only for a request presented first that spells no operation. -/
theorem step_refused {s : State} {c : Refusal} (h : step s = .refused c) :
    ∃ r rest e, s.inputs = Input.present r :: rest ∧ decode r = .error e := by
  cases hin : s.inputs with
  | nil => rw [step_nil hin] at h; cases h
  | cons inp rest =>
    obtain ⟨rst, request⟩ := inp
    cases rst with
    | true => rw [step_rst hin] at h; cases h
    | false =>
      cases request with
      | none => rw [step_quiet hin] at h; cases h
      | some r =>
        cases hd : decode r with
        | error e => exact ⟨r, rest, e, rfl, hd⟩
        | ok i =>
          obtain ⟨t, ht⟩ := exec_completes i { s with inputs := rest }
          rw [step_present hin hd, ht] at h; cases h

/-! ### The obligations -/

/-- Settles O23: DECODE_EXT and SCAN leave only an answer behind, which no operation reads, so the outcomes are equal. -/
theorem recognizedExtensionAltersNoAccessor : Obligations.RecognizedExtensionAltersNoAccessor := by
  refine ⟨fun p i s t hp h => ?_, fun bytes s => exec_completes (.scan bytes) s⟩
  obtain ⟨a, rfl⟩ := answerWith_of_exec_recognizer hp h
  obtain ⟨u, hu⟩ := exec_completes i s
  exact ⟨u, u, hu, (exec_answerWith i s a).trans hu, ⟨rfl, rfl⟩, rfl⟩

/-- Settles O25: every operation completes, there is no reason for a fault, and a step is refused only for a
request that spells no operation, which is a command with a reserved code. -/
theorem operationsNeverFail : Obligations.OperationsNeverFail := by
  refine ⟨exec_completes, fun _ f => (nomatch f), fun s c h => ?_⟩
  obtain ⟨r, rest, e, hin, hd⟩ := step_refused h
  obtain ⟨op, idx, wdata, rfl, hop⟩ := reserved_of_decode_error hd
  exact ⟨op, idx, wdata, rest, hin, hop⟩

end Sys2Proof.Machine

/-! ## Family other: the codec, steps and runs, sequences of operations, the hardware ports -/

namespace Sys2Proof.Machine

/-! ### The codes of a command, and what the encoder writes -/

/-- The twelve codes that are not reserved (R41, R45). -/
theorem code_cases {op : BitVec 4} (h : op.toNat < 12) :
    op = 0x0#4 ∨ op = 0x1#4 ∨ op = 0x2#4 ∨ op = 0x3#4 ∨ op = 0x4#4 ∨ op = 0x5#4 ∨ op = 0x6#4 ∨ op = 0x7#4 ∨
      op = 0x8#4 ∨ op = 0x9#4 ∨ op = 0xA#4 ∨ op = 0xB#4 := by
  revert op; decide

/-- A command with a reserved code spells no operation (R45). -/
theorem decodeCommand_reserved {op : BitVec 4} (h : 12 ≤ op.toNat) (idx : Nat) (wdata : Word) :
    decodeCommand op idx wdata = .error (.reservedOperation op) := by
  unfold decodeCommand
  split
  case h_13 => rfl
  all_goals omega

/-- A command that spells an operation has one of the twelve codes (R45). -/
theorem toNat_lt_of_decodeCommand_ok {op : BitVec 4} {idx : Nat} {wdata : Word} {i : Instr}
    (h : decodeCommand op idx wdata = .ok i) : op.toNat < 12 := by
  by_contra hge
  rw [decodeCommand_reserved (Nat.le_of_not_lt hge)] at h
  cases h

/-- Decoding what the encoder puts on the ports gives the operation back: each code is its own, the index travels
whole, and a set's value survives `rf_wdata`. -/
theorem decode_encode (i : Instr) : decode (encode i) = .ok i := by
  cases i with
  | set64 k v => exact congrArg (fun v => Except.ok (Instr.set64 k v)) (operandValue_64 v)
  | set32 k v => exact congrArg (fun v => Except.ok (Instr.set32 k v)) (operandValue_setWidth (by decide) v)
  | set16 k v => exact congrArg (fun v => Except.ok (Instr.set16 k v)) (operandValue_setWidth (by decide) v)
  | set8l k v => exact congrArg (fun v => Except.ok (Instr.set8l k v)) (operandValue_setWidth (by decide) v)
  | set8h k v => exact congrArg (fun v => Except.ok (Instr.set8h k v)) (operandValue_setWidth (by decide) v)
  | setf v => exact congrArg (fun v => Except.ok (Instr.setf v)) (operandValue_64 v)
  | get64 _ | get32 _ | get16 _ | get8l _ | get8h _ | getf | decodeExt _ | scan _ => rfl

/-- Every operation but DECODE_EXT and SCAN is encoded as a command, with its index or else 0 in the index field. -/
theorem encode_eq_rf {i : Instr} (hd : ∀ b, i ≠ .decodeExt b) (hs : ∀ bytes, i ≠ .scan bytes) :
    ∃ op wdata, encode i = .rf op (i.index?.getD 0) wdata := by
  cases i with
  | decodeExt b => exact absurd rfl (hd b)
  | scan bytes => exact absurd rfl (hs bytes)
  | _ => exact ⟨_, _, rfl⟩

/-- The index field's contents are below `2 ^ W` when the operation fits it. -/
theorem index_lt_of_fits {W : Nat} {i : Instr} (h : i.fits W = true) : i.index?.getD 0 < 2 ^ W := by
  unfold Instr.fits at h
  cases hi : i.index? with
  | none => exact Nat.two_pow_pos W
  | some n => simpa [hi] using h

/-- The packed command of an operation whose ports are a command's. -/
theorem encodePacked_of_encode {W idx : Nat} {i : Instr} {op : BitVec 4} {wdata : Word}
    (h : encode i = .rf op idx wdata) : encodePacked W i = some (packCommand W op idx wdata) := by
  simp only [encodePacked, h]

/-- What the encoder writes for an operation decoded from a command: the same code, the same index where the
operation has one, and the value the operation takes from the data with zeros above it (R43, log 19). -/
theorem encode_of_decodeCommand {op : BitVec 4} {idx : Nat} {wdata : Word} {i : Instr}
    (h : decodeCommand op idx wdata = .ok i) :
    (i.index? ≠ none → i.index? = some idx) ∧
      encode i = .rf op (i.index?.getD 0) ((operandValue (valueWidth i) wdata).setWidth 64) := by
  have hempty : (operandValue 0 wdata).setWidth 64 = 0#64 := by
    rw [BitVec.of_length_zero (x := operandValue 0 wdata)]; rfl
  obtain rfl | rfl | rfl | rfl | rfl | rfl | rfl | rfl | rfl | rfl | rfl | rfl :=
    code_cases (toNat_lt_of_decodeCommand_ok h)
  all_goals
    cases h
    simp [Instr.index?, encode, valueWidth, hempty]

/-- The value operand with zeros above it, bit by bit (R43). -/
theorem getLsbD_operandOnPort (n : Nat) (wdata : Word) {b : Nat} (hb : b < 64) :
    ((operandValue n wdata).setWidth 64).getLsbD b = (decide (b < n) && wdata.getLsbD b) := by
  rw [BitVec.getLsbD_setWidth, operandValue_eq_setWidth, BitVec.getLsbD_setWidth, decide_eq_true hb, Bool.true_and]

/-- A bit of a packed command's data field. -/
theorem getLsbD_data {n b : Nat} (cmd : BitVec n) (hb : b < 64) :
    (cmd.extractLsb' 0 64).getLsbD b = cmd.getLsbD b := by
  rw [BitVec.getLsbD_extractLsb', decide_eq_true hb, Bool.true_and, Nat.zero_add]

/-- No operation takes more than the 64 bits of `rf_wdata` (R43). -/
theorem valueWidth_le (i : Instr) : valueWidth i ≤ 64 := by
  cases i <;> simp [valueWidth]

/-- Settles O35. -/
theorem decodeOfEncode : Obligations.DecodeOfEncode := decode_encode

/-- Settles O36: unpacking gives the encoder's ports back, since the index fits its field, and they decode to the
operation. -/
theorem packedCommandRoundTrip : Obligations.PackedCommandRoundTrip := by
  intro W i hd hs hfits
  obtain ⟨op, wdata, he⟩ := encode_eq_rf hd hs
  refine ⟨_, encodePacked_of_encode he, ?_⟩
  rw [decodePacked, unpackCommand_packCommand _ _ _ _ (index_lt_of_fits hfits), ← he, decode_encode]

/-- Settles O37: the fields of the encoder's command are those of `encode_of_decodeCommand`. -/
theorem decodingDropsNoUsedBit : Obligations.DecodingDropsNoUsedBit := by
  intro W cmd i h
  obtain ⟨hidx, he⟩ := encode_of_decodeCommand h
  refine ⟨_, encodePacked_of_encode he, packCommand_op _ _ _ _, fun hi => ?_, fun b hb => ?_, fun b hb hb64 => ?_⟩
  · rw [packCommand_index, hidx hi, Option.getD_some, BitVec.ofNat_toNat, BitVec.setWidth_eq]
  · have hb64 : b < 64 := hb.trans_le (valueWidth_le i)
    rw [← getLsbD_data _ hb64, packCommand_data, getLsbD_operandOnPort _ _ hb64, decide_eq_true hb, Bool.true_and,
      getLsbD_data cmd hb64]
  · rw [← getLsbD_data _ hb64, packCommand_data, getLsbD_operandOnPort _ _ hb64,
      decide_eq_false (Nat.not_lt.mpr hb), Bool.false_and]

/-- Settles O38. -/
theorem writtenOutWordsDecode : Obligations.WrittenOutWordsDecode :=
  ⟨rfl, rfl, rfl, rfl, rfl, rfl, rfl, rfl⟩

/-! ### What a step does with what is presented -/

/-- A step in which a request is presented that spells no operation is refused (R45). -/
theorem step_present_error {s : State} {r : Request} {rest : List Input} {e : DecodeError}
    (h : s.inputs = Input.present r :: rest) (hd : decode r = .error e) : step s = .refused (refusalOf e) := by
  simp [step, State.takeInput_cons h, Input.present, hd]

/-- The opcode table's word is decoded as the request it is presented as. -/
theorem decode_tableRequest {nbits w : Nat} {i : Instr} (h : decodeTableWord nbits w = some i) :
    decode (tableRequest nbits w) = .ok i := by
  unfold decodeTableWord at h
  cases hd : decode (tableRequest nbits w) with
  | ok k => rw [hd] at h; exact congrArg Except.ok (Option.some.inj h)
  | error e => rw [hd] at h; cases h

/-- Settles O39. -/
theorem stepRunsTheDecodedOperation : Obligations.StepRunsTheDecodedOperation :=
  fun _ _ _ _ hd h => step_present h hd

/-- Settles O40: the word stands first, and taking it leaves the state it was presented to. -/
theorem presentedWordRunsNext : Obligations.PresentedWordRunsNext :=
  fun s nbits w _ h => step_present (State.withFetchWord_inputs s nbits w) (decode_tableRequest h)

/-- Settles O26: no reserved code decodes. -/
theorem reservedCodesAreRefused : Obligations.ReservedCodesAreRefused :=
  fun _ _ idx wdata _ hop h => step_present_error h (decodeCommand_reserved hop idx wdata)

/-- Settles O41: the step is `State.clear` of the state with the input taken. -/
theorem resetStepClearsCore : Obligations.ResetStepClearsCore :=
  fun _ _ _ h => ⟨_, step_rst h, State.reset_slot, rfl, rfl⟩

/-- Settles O42: with or without an input left, the step is `State.idle`. -/
theorem quietStepChangesNothing : Obligations.QuietStepChangesNothing := by
  rintro s (h | ⟨rest, h⟩)
  · exact ⟨_, step_nil h, ⟨rfl, rfl⟩, rfl, by rw [h]; exact h⟩
  · exact ⟨_, step_quiet h, ⟨rfl, rfl⟩, rfl, by rw [h]; rfl⟩

/-! ### The machine's invariant -/

/-- Taking an input leaves those after it, and an empty list stays empty (log 13). -/
theorem takeInput_inputs (s : State) : s.takeInput.2.inputs = s.inputs.tail := by
  cases h : s.inputs with
  | nil => rw [State.takeInput_nil h]; exact h
  | cons inp rest => rw [State.takeInput_cons h]; rfl

/-- Whatever a step does, it takes the one input. -/
theorem step_inputs {s t : State} (h : step s = .next t) : t.inputs = s.inputs.tail := by
  rw [← takeInput_inputs]
  obtain ⟨_, rfl⟩ | ⟨_, _, rfl⟩ | ⟨_, _, _, _, _, he⟩ := step_cases h
  · rfl
  · rfl
  · exact exec_inputs he

/-- What is presented after an admitted step is admitted. -/
theorem step_admitted {s t : State} (hs : s.admitted) (h : step s = .next t) : t.admitted := by
  intro inp hmem
  rw [step_inputs h] at hmem
  exact hs inp (List.mem_of_mem_tail hmem)

/-- A step stops only on a reserved command outside reset, so from an admitted state it answers a next state. -/
theorem step_completes {s : State} (hs : s.admitted) : ∃ t, step s = .next t := by
  cases h : step s with
  | next t => exact ⟨t, rfl⟩
  | fault f => nomatch f
  | refused c =>
    obtain ⟨r, rest, e, hin, hd⟩ := step_refused h
    obtain ⟨op, idx, wdata, rfl, hop⟩ := reserved_of_decode_error hd
    have hadm : Request.admitted (.rf op idx wdata) = true :=
      hs (Input.present (.rf op idx wdata)) (by simp [hin]) rfl _ rfl
    exact absurd (of_decide_eq_true hadm) (Nat.not_lt.mpr hop)

/-- A scan's answer is well-formed (R67, R68). -/
theorem scanOf_wf (bytes : List Byte) : ScanResult.wf (scanOf bytes) := by
  obtain h | ⟨_, _, e, _, _, h⟩ := scanOf_cases bytes <;> rw [h] <;> simp [ScanResult.wf]

/-- What an operation answers is something CORE can drive: only SCAN answers a scan's result. -/
theorem exec_answerOk {i : Instr} {s t : State} (h : exec i s = .next t) : t.answerOk := by
  cases i with
  | scan bytes => cases h; exact scanOf_wf bytes
  | _ => cases h; trivial

/-- After any step the answer is something CORE can drive: a reset or quiet step answers nothing. -/
theorem step_answerOk {s t : State} (h : step s = .next t) : t.answerOk := by
  obtain ⟨_, rfl⟩ | ⟨_, _, rfl⟩ | ⟨_, _, _, _, _, he⟩ := step_cases h
  · trivial
  · trivial
  · exact exec_answerOk he

/-- Settles O45: what is left of an admitted list is admitted, and every step's answer is well-formed whatever stood
there before. -/
theorem stepKeepsTheInvariant : Obligations.StepKeepsTheInvariant :=
  ⟨fun _ _ ⟨hadm, _⟩ h => ⟨step_admitted hadm h, step_answerOk h⟩, fun _ ⟨hadm, _⟩ => step_completes hadm⟩

/-- Settles O2: nothing is presented, and the answer is no scan's. -/
theorem resetMeetsTheInvariant : Obligations.ResetMeetsTheInvariant :=
  ⟨fun _ hmem => absurd hmem List.not_mem_nil, trivial⟩

/-! ### Runs -/

/-- Settles O44: by induction on the number of steps, each of which completes and leaves an admitted state. -/
theorem admittedRunsNeverStop : Obligations.AdmittedRunsNeverStop := by
  intro n
  induction n with
  | zero => exact fun s hs => ⟨s, rfl, rfl, hs⟩
  | succ n ih =>
    intro s hs
    obtain ⟨s', hstep⟩ := step_completes hs
    obtain ⟨t, hrun, hin, ht⟩ := ih s' (step_admitted hs hstep)
    refine ⟨t, (core_run_succ hstep).trans hrun, ?_, ht⟩
    rw [hin, step_inputs hstep, List.drop_tail]

/-- Settles O43: by induction on the operations. The first step runs the first operation, whose meaning does not
depend on what is presented after it, and leaves the encodings of the others. -/
theorem streamRunsInIssueOrder : Obligations.StreamRunsInIssueOrder := by
  intro ops rest
  induction ops with
  | nil => intro s h; cases h; rfl
  | cons i ops ih =>
    intro s h
    obtain ⟨t, ht⟩ :=
      exec_completes i { s with inputs := ops.map (fun i => Input.present (encode i)) ++ rest }
    have hstep : step s = .next t := (step_present h (decode_encode i)).trans ht
    have hrest : Sys2Proof.core.run ops.length t = runOps ops { t with inputs := rest } := ih t (exec_inputs ht)
    exact (core_run_succ hstep).trans (hrest.trans (runOps_cons (exec_with_inputs ht rest)).symm)

/-! ### The extension byte and its ports -/

/-- The four bits of an extension, `W` the highest, count the byte's distance from `0x40` (R47). -/
theorem extensionOf_eq_some {b : Byte} {x : Ext} (h : extensionOf b = some x) :
    x.W.toNat * 8 + x.R.toNat * 4 + x.X.toNat * 2 + x.B.toNat = b.toNat - 0x40 := by
  have hb : b.toNat / 16 = 4 := (extensionOf_ne_none_iff b).mp (by simp [h])
  unfold extensionOf at h
  split at h
  case isFalse => cases h
  cases h
  simp only [BitVec.getLsbD, Nat.toNat_testBit]
  omega

/-- SCAN of a non-empty slice reports its first byte's extension, and one byte consumed where there is one (R66). -/
theorem scanOf_cons (b : Byte) (rest : List Byte) :
    scanOf (b :: rest) = ⟨extensionOf b, if extensionOf b = none then 0 else 1⟩ := by
  cases h : extensionOf b <;> simp [scanOf, h]

/-- `dx_present` compares the upper four bits of the byte with `0100` (R40). -/
theorem dxPresent_iff (b : Byte) : dxPresent b = true ↔ b.toNat / 16 = 4 := by
  rw [dxPresent, beq_iff_eq, ← BitVec.toNat_inj, BitVec.toNat_ushiftRight, Nat.shiftRight_eq_div_pow]
  rfl

/-- `dx_present` is 1 exactly when DECODE_EXT answers an extension (R40, R65). -/
theorem dxPresent_eq_isSome (b : Byte) : dxPresent b = (extensionOf b).isSome := by
  rw [Bool.eq_iff_iff, dxPresent_iff, Option.isSome_iff_ne_none, extensionOf_ne_none_iff]

/-- The port value of an extension as a number. -/
theorem Ext.nibble_toNat (x : Ext) :
    (Ext.nibble x).toNat = x.W.toNat * 8 + x.R.toNat * 4 + x.X.toNat * 2 + x.B.toNat := by
  obtain ⟨W, R, X, B⟩ := x
  revert W R X B
  decide

/-- `dx_ext` is the four bits of the extension, where there is one (R40, R47). -/
theorem dxExt_eq_nibble {b : Byte} {x : Ext} (h : extensionOf b = some x) : dxExt b = Ext.nibble x := by
  have hb : b.toNat / 16 = 4 := (extensionOf_ne_none_iff b).mp (by simp [h])
  rw [dxExt, if_pos ((dxPresent_iff b).mpr hb), ← BitVec.toNat_inj, BitVec.toNat_setWidth, Ext.nibble_toNat,
    extensionOf_eq_some h]
  omega

/-- The ports of PR follow those of DECODE_EXT where the slice is not empty (R40). -/
theorem prExt_eq_nibble {b : Byte} {x : Ext} (h : extensionOf b = some x) : prExt true b = Ext.nibble x := by
  have hp : prPresent true b = true := (dxPresent_eq_isSome b).trans (by rw [h]; rfl)
  rw [prExt, if_pos hp, dxExt_eq_nibble h]

/-- `pr_consumed` is 1 exactly with an extension (R40, R67). -/
theorem prConsumed_eq (b : Byte) : prConsumed true b = if extensionOf b = none then 0 else 1 := by
  have hp : prConsumed true b = (extensionOf b).isSome.toNat := congrArg Bool.toNat (dxPresent_eq_isSome b)
  rw [hp]
  cases extensionOf b <;> rfl

/-- Settles O17: the extension is `extensionOf`, its range and its bits said above. -/
theorem decodeExtFollowsTheRexLayout : Obligations.DecodeExtFollowsTheRexLayout :=
  fun b _ => ⟨extensionOf b, rfl, extensionOf_ne_none_iff b, fun _ h => extensionOf_eq_some h⟩

/-- Settles O18: both answers come from `extensionOf` of the first byte. -/
theorem scanReportsTheFirstBytesExtension : Obligations.ScanReportsTheFirstBytesExtension :=
  fun b rest s => ⟨extensionOf b, rfl,
    congrArg (fun r => Host.Outcome.next (s.answerWith (.scan r))) (scanOf_cons b rest)⟩

/-- Settles O19. -/
theorem scanOfTheEmptySlice : Obligations.ScanOfTheEmptySlice := fun _ => rfl

/-- Settles O22: outside the range `extensionOf` answers "absent". -/
theorem byteOutsideTheRangeIsNoError : Obligations.ByteOutsideTheRangeIsNoError := by
  refine ⟨fun b s hb => ?_, exec_completes (.scan [])⟩
  have hnone : extensionOf b = none := by
    by_contra hne
    exact hb ((extensionOf_ne_none_iff b).mp hne)
  exact congrArg (fun e => Host.Outcome.next (s.answerWith (.ext e))) hnone

/-- Settles O46: the ports compare and copy the same bits of the byte that `extensionOf` reads. -/
theorem extensionPortsAgreeWithOperations : Obligations.ExtensionPortsAgreeWithOperations :=
  fun b rest s => ⟨extensionOf b, _, rfl,
    congrArg (fun r => Host.Outcome.next (s.answerWith (.scan r))) (scanOf_cons b rest),
    dxPresent_eq_isSome b, fun _ h => dxExt_eq_nibble h,
    dxPresent_eq_isSome b, fun _ h => prExt_eq_nibble h, prConsumed_eq b, rfl, rfl⟩

/-! ### One operation: its frame, and doing it twice -/

/-- A slot that no sized set addresses keeps its contents (R19). -/
theorem exec_slot_of_not_addressed {i : Instr} {s t : State} (h : exec i s = .next t) {k : Fin 16}
    (hk : ∀ n, setIndex i = some n → n % 16 ≠ k.val) : t.slot k = s.slot k := by
  obtain ⟨_, _, _, _, he⟩ | ⟨n, _, _, hn, he⟩ | ⟨_, he⟩ | ⟨_, _, he⟩ | ⟨_, _, he⟩ | ⟨_, _, he⟩ := exec_cases i s <;>
    cases he.symm.trans h
  case inr.inl => rw [State.put_slot_mod, if_neg (hk n hn).symm]
  all_goals rfl

section put
variable {s : State} {i i' : Nat} {write write' : Word → Word}

/-- Writing a lane's bits (`P`) with the same value (`new`) a second time changes nothing. -/
theorem write_write_of_bits {P : Nat → Prop} [DecidablePred P] {new : Nat → Bool}
    (hw : ∀ x b, (write x).getLsbD b = if P b then new b else x.getLsbD b) (x : Word) :
    write (write x) = write x := by
  apply BitVec.eq_of_getLsbD_eq
  intro b _
  rw [hw, hw]
  by_cases h : P b <;> simp only [h, if_true, if_false]

/-- A set whose lane takes the same value twice leaves what one such set leaves. -/
theorem State.put_put_self (hw : ∀ x, write (write x) = write x) : (s.put i write).put i write = s.put i write := by
  refine State.ext_slots (fun k => ?_) rfl rfl rfl
  simp only [State.put_slot]
  split
  · exact hw _
  · rfl

/-- Two sets commute when they address different slots or their lanes commute. -/
theorem State.put_comm (hw : widx i = widx i' → ∀ x, write (write' x) = write' (write x)) :
    (s.put i write).put i' write' = (s.put i' write').put i write := by
  refine State.ext_slots (fun k => ?_) rfl rfl rfl
  simp only [State.put_slot]
  split
  case isFalse => rfl
  case isTrue hi' =>
    split
    case isFalse => rfl
    case isTrue hi => exact (hw (hi.trans hi'.symm) _).symm

end put

section lanes
variable (x : Word)

/-- The two byte lanes are disjoint (R30). -/
theorem putLow8_putHigh8 (lo hi : Byte) : putLow8 (putHigh8 x hi) lo = putHigh8 (putLow8 x lo) hi := by
  apply BitVec.eq_of_getLsbD_eq
  intro b _
  simp only [getLsbD_putLow8, getLsbD_putHigh8]
  by_cases h : b < 8
  · simp [h, Nat.not_le.mpr h]
  · simp [h]

/-! A get's lane after a set of the same lane: the value set. -/

theorem lane32_put32 (v : Word32) : lane32 (put32 x v) = v := by
  apply BitVec.eq_of_getLsbD_eq
  intro b hb
  simp [hb]

theorem lane16_put16 (v : Half) : lane16 (put16 x v) = v := by
  apply BitVec.eq_of_getLsbD_eq
  intro b hb
  simp [hb]

theorem laneLow8_putLow8 (v : Byte) : laneLow8 (putLow8 x v) = v := by
  apply BitVec.eq_of_getLsbD_eq
  intro b hb
  simp [hb]

theorem laneHigh8_putHigh8 (v : Byte) : laneHigh8 (putHigh8 x v) = v := by
  apply BitVec.eq_of_getLsbD_eq
  intro b hb
  have : 8 + b < 16 := by omega
  simp [*]

/-- The high byte above the low byte is the 16-bit lane (R30). -/
theorem laneHigh8_append_laneLow8 : laneHigh8 x ++ laneLow8 x = lane16 x := by
  apply BitVec.eq_of_getLsbD_eq
  intro b hb
  rw [BitVec.getLsbD_append, getLsbD_laneLow8, getLsbD_laneHigh8, getLsbD_lane16]
  by_cases h : b < 8
  · simp [h, hb]
  · have : b - 8 < 8 := by omega
    have : 8 + (b - 8) = b := by omega
    simp [*]

/-- The 32-bit view is the low part of the 64-bit one. -/
theorem setWidth_eq_lane32 : x.setWidth 32 = lane32 x := (operandValue_eq_setWidth 32 x).symm

/-- The 16-bit view is the low part of the 32-bit one. -/
theorem setWidth_lane32 : (lane32 x).setWidth 16 = lane16 x := by
  rw [← setWidth_eq_lane32, BitVec.setWidth_setWidth_of_le _ (by decide)]
  exact (operandValue_eq_setWidth 16 x).symm

end lanes

/-- A sized set is one `State.put` at its index, from every state. -/
theorem exec_of_setIndex {p : Instr} {m : Nat} (h : setIndex p = some m) :
    ∃ write, ∀ s, exec p s = .next (s.put m write) := by
  cases p with
  | set64 _ _ | set32 _ _ | set16 _ _ | set8l _ _ | set8h _ _ => cases h; exact ⟨_, fun _ => rfl⟩
  | _ => cases h

/-- Settles O27: a slot that is not addressed keeps its contents. -/
theorem onlyTheAddressedSlotChanges : Obligations.OnlyTheAddressedSlotChanges := by
  refine fun i s t h => ⟨exec_inputs h, fun k hne => ?_, fun hnone => ?_⟩
  · by_contra hno
    exact hne (exec_slot_of_not_addressed h fun n hn hnk => hno ⟨n, hn, hnk⟩)
  · exact State.slots_ext fun k => exec_slot_of_not_addressed h fun n hn => by cases hnone.symm.trans hn

/-- Settles O29: an operation that is no set changes the answer alone, which none reads; a set writes its lane with
the same value again. -/
theorem operationsAreIdempotent : Obligations.OperationsAreIdempotent := by
  intro i s t h
  cases i with
  | set64 k v => cases h; exact congrArg Host.Outcome.next (State.put_put_self fun _ => rfl)
  | set32 k v => cases h; exact congrArg Host.Outcome.next (State.put_put_self fun _ => rfl)
  | set16 k v =>
    cases h
    exact congrArg Host.Outcome.next
      (State.put_put_self (write_write_of_bits fun x b => getLsbD_put16 x b v))
  | set8l k v =>
    cases h
    exact congrArg Host.Outcome.next
      (State.put_put_self (write_write_of_bits fun x b => getLsbD_putLow8 x b v))
  | set8h k v =>
    cases h
    exact congrArg Host.Outcome.next
      (State.put_put_self (write_write_of_bits fun x b => getLsbD_putHigh8 x b v))
  | setf v => cases h; rfl
  | get64 _ | get32 _ | get16 _ | get8l _ | get8h _ | getf | decodeExt _ | scan _ =>
    cases h; exact exec_answerWith _ s _

/-! ### Two operations one after another -/

/-- The answer of a get of the slot just set is the get's lane of what the set left there. -/
theorem State.put_get_answer {s : State} {i i' : Nat} {read : Word → Answer} {write : Word → Word}
    (h : i' % 16 = i % 16) : ((s.put i write).get i' read).answer = read (write (s.slot (widx i))) := by
  rw [State.put_get_of_mod h, State.answerWith_answer]

/-- Settles O30: at each width the lane read is the lane written. -/
theorem readAfterWriteReturnsTheValue : Obligations.ReadAfterWriteReturnsTheValue := by
  refine fun i i' s h => ⟨fun v => ⟨_, rfl, ?_⟩, fun v => ⟨_, rfl, ?_⟩, fun v => ⟨_, rfl, ?_⟩, fun v => ⟨_, rfl, ?_⟩,
    fun v => ⟨_, rfl, ?_⟩⟩ <;> rw [State.put_get_answer h]
  · rfl
  · rw [lane32_put32]
  · rw [lane16_put16]
  · rw [laneLow8_putLow8]
  · rw [laneHigh8_putHigh8]

/-- Settles O31: the byte lanes are disjoint, and sets of different slots have no slot in common. -/
theorem disjointSetsCommute : Obligations.DisjointSetsCommute := by
  refine ⟨fun i i' a b s => ?_, fun p q m n s hp hq hmn => ?_⟩
  · exact congrArg Host.Outcome.next (State.put_comm fun _ x => putLow8_putHigh8 x a b)
  · obtain ⟨write, hw⟩ := exec_of_setIndex hp
    obtain ⟨write', hw'⟩ := exec_of_setIndex hq
    rw [runOps_cons (hw s), runOps_cons (hw' _), runOps_cons (hw' s), runOps_cons (hw _)]
    exact congrArg Host.Outcome.next (State.put_comm fun h => absurd ((widx_eq_iff m n).mp h) hmn)

/-- Settles O32: the contents that SET64 and SET32 leave do not depend on what the slot held. -/
theorem wideSetsOverwrite : Obligations.WideSetsOverwrite := by
  intro p s i j hj
  obtain ⟨s', hp⟩ := exec_completes p s
  refine ⟨fun v => ⟨_, runOps_cons hp, ?_⟩, fun v => ⟨_, _, runOps_cons hp, ?_, rfl, ?_⟩⟩
  · rw [State.put_slot_mod, if_pos hj.symm]; rfl
  · rw [State.put_slot_mod, if_pos hj.symm, put32_eq_setWidth]
  · rw [State.put_get_answer rfl, put32_eq_setWidth]; rfl

/-- Settles O33: the five lanes are parts of one word. -/
theorem viewsOfOneSlotAgree : Obligations.ViewsOfOneSlotAgree :=
  fun _ _ => ⟨_, _, _, _, _, rfl, rfl, rfl, rfl, rfl, setWidth_eq_lane32 _, setWidth_lane32 _,
    laneHigh8_append_laneLow8 _⟩

/-- `mov64` completes; slot `d mod 16` then holds what slot `src mod 16` held, and the rest of CORE is as it was. -/
theorem mov64_completes (d src : Nat) (s : State) : ∃ t, mov64 d src s = .next t ∧ t.flags = s.flags ∧
    ∀ k : Fin 16, t.slot k = if k.val = d % 16 then s.slot (widx src) else s.slot k :=
  ⟨_, rfl, rfl, State.put_slot_mod⟩

/-- Settles O34: where both indices name one slot, the slot is set to what it held. -/
theorem mov64CopiesOneSlot : Obligations.Mov64CopiesOneSlot := by
  intro d src s jd js hd hs
  obtain ⟨t, ht, hflags, hslot⟩ := mov64_completes d src s
  rw [widx_eq_of_mod hs, hd] at hslot
  have hcopy : t.slot jd = s.slot js := (hslot jd).trans (if_pos rfl)
  have hkeep (k : Fin 16) (hk : k ≠ jd) : t.slot k = s.slot k := (hslot k).trans (if_neg (Fin.val_ne_of_ne hk))
  refine ⟨t, ht, hcopy, hkeep, hflags, fun hj => ⟨State.slots_ext fun k => ?_, hflags⟩⟩
  by_cases hk : k = jd
  · rw [hk, hcopy, hj]
  · exact hkeep k hk

/-! ### The clocked register file -/

section clocked
variable {s : State} {op : BitVec 4} {idx sel : Nat} {d : Word} {rest : List Input}

/-- The state `t` is what the clocked register file has after the edge, and its answer is what the file drives. -/
def AgreesWithPorts (s t : State) (p : RfPorts) : Prop :=
  t.slots = rfNextSlots p s ∧ t.flags = rfNextFlags p s ∧ t.rfRdata = rfRdata p s

/-- A get agrees with the ports when its lane, on the port, is what the read multiplexer drives. -/
theorem get_agreesWithPorts {read : Word → Answer} (hop : op.getLsbD 0 = false)
    (hsel : (op.extractLsb' 1 3).toNat = sel) (hread : ∀ x, Answer.rfRdata (read x) = readMux sel x s.flags) :
    AgreesWithPorts s (({ s with inputs := rest } : State).get idx read) ⟨false, true, op, idx, d⟩ := by
  obtain ⟨hslots, hflags, hrdata⟩ := rfPorts_get s op idx sel d hop hsel
  exact ⟨hslots.symm, hflags.symm, (hread _).trans hrdata.symm⟩

/-- A set of a value of width `n` agrees with the ports when its lane is what the masked write leaves. -/
theorem put_agreesWithPorts {n : Nat} {put : Word → BitVec n → Word} (hop : op.getLsbD 0 = true)
    (hsel : (op.extractLsb' 1 3).toNat = sel) (h5 : sel ≠ 5)
    (hput : ∀ x, maskedWrite sel x d = put x (d.setWidth n)) :
    AgreesWithPorts s (({ s with inputs := rest } : State).put idx fun x => put x (operandValue n d))
      ⟨false, true, op, idx, d⟩ := by
  obtain ⟨hslots, hflags, hrdata⟩ := rfPorts_set s op idx sel d hop hsel
  rw [hput, ← operandValue_eq_setWidth] at hslots
  rw [if_neg h5] at hflags
  exact ⟨hslots.symm, hflags.symm, hrdata.symm⟩

/-- GETF's command: width class 5 of the read multiplexer drives the flags. -/
theorem getFlags_agreesWithPorts :
    AgreesWithPorts s ({ s with inputs := rest } : State).getFlags ⟨false, true, 0xA#4, idx, d⟩ := by
  obtain ⟨hslots, hflags, hrdata⟩ := rfPorts_get s 0xA#4 idx 5 d rfl rfl
  exact ⟨hslots.symm, hflags.symm, hrdata.symm⟩

/-- SETF's command has an empty write mask, so the addressed slot is written with what it held. -/
theorem putFlags_agreesWithPorts :
    AgreesWithPorts s (({ s with inputs := rest } : State).putFlags (operandValue 64 d))
      ⟨false, true, 0xB#4, idx, d⟩ := by
  obtain ⟨hslots, hflags, hrdata⟩ := rfPorts_set s 0xB#4 idx 5 d rfl rfl
  refine ⟨?_, (operandValue_64 d).trans hflags.symm, hrdata.symm⟩
  rw [hslots, maskedWrite_flags]
  exact (Vector.set_getElem_self _).symm

/-- A command that is not reserved: the step completes, and agrees with the ports. Each code is one width class,
a get of it or a set. -/
theorem step_command_agreesWithPorts (hop : op.toNat < 12) (hin : s.inputs = Input.present (.rf op idx d) :: rest) :
    ∃ t, step s = .next t ∧ AgreesWithPorts s t ⟨false, true, op, idx, d⟩ := by
  obtain rfl | rfl | rfl | rfl | rfl | rfl | rfl | rfl | rfl | rfl | rfl | rfl := code_cases hop
  · exact ⟨_, step_present hin rfl, get_agreesWithPorts rfl rfl fun _ => rfl⟩
  · exact ⟨_, step_present hin rfl, put_agreesWithPorts (sel := 0) rfl rfl (by decide) fun x => maskedWrite_64 x d⟩
  · exact ⟨_, step_present hin rfl, get_agreesWithPorts rfl rfl fun x => (readMux_32 x s.flags).symm⟩
  · exact ⟨_, step_present hin rfl, put_agreesWithPorts rfl rfl (by decide) fun x => maskedWrite_32 x d⟩
  · exact ⟨_, step_present hin rfl, get_agreesWithPorts rfl rfl fun x => (readMux_16 x s.flags).symm⟩
  · exact ⟨_, step_present hin rfl, put_agreesWithPorts rfl rfl (by decide) fun x => maskedWrite_16 x d⟩
  · exact ⟨_, step_present hin rfl, get_agreesWithPorts rfl rfl fun x => (readMux_low8 x s.flags).symm⟩
  · exact ⟨_, step_present hin rfl, put_agreesWithPorts rfl rfl (by decide) fun x => maskedWrite_low8 x d⟩
  · exact ⟨_, step_present hin rfl, get_agreesWithPorts rfl rfl fun x => (readMux_high8 x s.flags).symm⟩
  · exact ⟨_, step_present hin rfl, put_agreesWithPorts rfl rfl (by decide) fun x => maskedWrite_high8 x d⟩
  · exact ⟨_, step_present hin rfl, getFlags_agreesWithPorts⟩
  · exact ⟨_, step_present hin rfl, putFlags_agreesWithPorts⟩

end clocked

/-- Settles O47: a command by its code; a quiet step and a reset step from the ports' own gates. -/
theorem clockedRegisterFileRefinesTheStep : Obligations.ClockedRegisterFileRefinesTheStep := by
  refine ⟨fun s op idx d rest hop hin => step_command_agreesWithPorts hop hin,
    fun s op idx d rest hin => ⟨_, step_quiet hin, rfl, rfl, rfl⟩,
    fun s p req rest hrst hin => ⟨_, step_rst hin, ?_, ?_⟩⟩
  · rw [rfNextSlots, if_pos hrst]; rfl
  · rw [rfNextFlags, if_pos hrst]; rfl

end Sys2Proof.Machine
